-- ==== Sys2Proof/Word.lean ====
section
/-! DEFINITION. The data units of the core: the byte (R38, R39) and the bit (R55).  Every other quantity of the spec
is a natural number (R7) or one of the closed sets of names of Syntax.lean and Machine/State.lean. -/

namespace Sys2Proof

/-- One byte of IN or of OUT, and the width of the tag register (R12, R39). Bit 7 is the most significant (R7). -/
abbrev Byte := BitVec 8

end Sys2Proof
end

