-- ==== Sys2Proof/Config.lean ====
section
/-! DEFINITION. The implementation parameters of R5, the widths derived from them, and the one free value of the
model.  The parameters are plain data that `State` carries (assumption 1), so that a statement about every state is a
statement about every configuration. -/

namespace Sys2Proof

/-- The parameters of R5. `none` in `outCap`, `numBits` or `inPosBits` is the unbounded reading of R6 and D20
(assumption 2). The constraints between them are `Config.valid` (Machine/Ops.lean). -/
structure Config where
  /-- TAG_SIZE, bytes per tag reload; fixed at 1, any other value is refused (R5, R13). -/
  tagSize : Nat
  /-- OUT_CAP, the capacity of the output buffer in bytes. -/
  outCap : Option Nat
  /-- NUM_BITS, the width of the gamma accumulator. -/
  numBits : Option Nat
  /-- IN_POS_BITS, the width of the input position counter. -/
  inPosBits : Option Nat
  /-- TRACE_EN, whether the trace port of R96 exists. -/
  traceEn : Bool
  /-- HOST_BUS, a name for the platform's mapping of the register indices; no rule depends on it (R22). -/
  hostBus : Nat
  /-- IN_BASE, where IN sits in a platform's memory; no rule depends on it (R40). -/
  inBase : Nat
  /-- OUT_BASE, where OUT sits in a platform's memory; no rule depends on it (R40). -/
  outBase : Nat
deriving DecidableEq, Repr

/-- The configuration of `State.reset`: the unbounded reading of R6, no trace port. DESIGN CHOICE (assumption 2). -/
def Config.reference : Config :=
  { tagSize := 1, outCap := none, numBits := none, inPosBits := none, traceEn := false,
    hostBus := 0, inBase := 0, outBase := 0 }

/-- OFF_BITS = NUM_BITS + 8 (R5), the width of `offset`, `last_offset` and `err_info`. -/
def Config.offBits (c : Config) : Option Nat := c.numBits.map (· + 8)

/-- LEN_BITS = NUM_BITS + 1 (R5), the width of `length` and of the copy counter. -/
def Config.lenBits (c : Config) : Option Nat := c.numBits.map (· + 1)

/-- The draws of R22, R25 and R36 ("an unspecified value"): the k-th draw of a run. It has no body, so nothing can be
proved of its value; `State.draws` counts how many have been taken (assumption 6). -/
opaque Config.freeValue : Nat → Nat

end Sys2Proof
end

