-- ==== Sys2Proof/Syntax.lean ====
section
/-! DEFINITION. The operations of the stream (R49), the items an operation is spelled with, the names of the faults
(R86) and of the operation in progress (R19, R62), and the place of the next bit in the stream (R20). -/

namespace Sys2Proof

/-- The eight operations of spec/opcode_table.json, with the operands of R49 in stream order. -/
inductive Instr where
  /-- FIRST (R76): the initial literal `L`. -/
  | first (l : Byte)
  /-- LIT (R77): prefix `0`, the literal `L`. -/
  | lit (l : Byte)
  /-- BLK_REUSE (R78): prefix `10`, `G1` = 2, then the length `G2`. -/
  | blkReuse (g2 : Nat)
  /-- BLK (R79, and R80 for `G1` = 2 with `pair` = 0): prefix `10`, `G1`, `LO`, `G2`. -/
  | blk (g1 : Nat) (lo : Byte) (g2 : Nat)
  /-- SHB (R81): prefix `110`, `S` of 2 or more. -/
  | shb (sv : Byte)
  /-- END (R82): prefix `110`, `S` of 0 or 1. -/
  | endStream (sv : Byte)
  /-- SB_ZERO (R83): prefix `111`, `D` = 0. -/
  | sbZero
  /-- SB_COPY (R84): prefix `111`, `D` from 1 to 15. -/
  | sbCopy (d : BitVec 4)
deriving DecidableEq, Repr

/-- The four opcodes the unary prefix selects (R48, R63, R64). -/
inductive Opcode where
  | literal | block | shortBlock | singleByte
deriving DecidableEq, Repr

/-- The four faults of R86. Each one ends the session in FAILED (R92); none of them stops the model. -/
inductive FaultCode where
  /-- Code 1 (R87). -/
  | unexpectedEndOfInput
  /-- Code 2 (R88). -/
  | invalidBackReference
  /-- Code 3 (R89). -/
  | outputCapacityExceeded
  /-- Code 4 (R91). -/
  | numberOverflow
deriving DecidableEq, Repr

/-- The working label `cur` of R62, as recorded in `err_op` (R19). `none` is the value 0; the value 7 is never taken. -/
inductive OpLabel where
  | none | first | opPrefix | lit | block | short | single
deriving DecidableEq, Repr

/-- What an operation is spelled with (R45, R46): bits, which go into tag bytes, and raw bytes. -/
inductive Item where
  | bit (b : Bool)
  | raw (v : Byte)
deriving DecidableEq, Repr

/-- The place of the next opcode in the stream, in the place of a program counter: the triple of R20. -/
structure Cursor where
  /-- `in_pos` (R17). -/
  inPos : Nat
  /-- `bit_count` (R11). -/
  bitCount : BitVec 3
  /-- `tag` (R12). -/
  tag : Byte
deriving DecidableEq, Repr

/-- What a bit-reader operation answers: a value and the cursor after it, or a fault and the cursor at the raise
(R93: what was written before the raise stays). -/
inductive Read (α : Type) where
  | done (v : α) (c : Cursor)
  | raised (f : FaultCode) (c : Cursor)
deriving DecidableEq, Repr

/-- What decoding one operation answers: the operation and the cursor after it, or a fault, the label `cur` at the
raise and the cursor at the raise. -/
inductive Decoded where
  | instr (i : Instr) (c : Cursor)
  | raised (f : FaultCode) (cur : OpLabel) (c : Cursor)
deriving DecidableEq, Repr

end Sys2Proof
end

