-- ==== Sys2Proof/WellFormed.lean ====
section
/-! DEFINITION. The operations a stream can spell: the ranges R49, R50 and R52 give the operands, and the width of a
gamma result (R5). The part of the selecting condition that depends on the state (`fsm`, `pair`) is `selects` in
Machine/Ops.lean. -/

namespace Sys2Proof

/-- `v` fits in NUM_BITS bits, the width of `g1`, `b` and the accumulator (R5, R60). -/
def Config.fitsNum (cfg : Config) (v : Nat) : Bool :=
  match cfg.numBits with
  | none => true
  | some n => decide (v < 2 ^ n)

/-- A gamma operand: at least 2 ("Values 0 and 1 have no code", R50) and of at most NUM_BITS bits. -/
def gammaOk (cfg : Config) (v : Nat) : Bool := decide (2 ≤ v) && cfg.fitsNum v

/-- The operand ranges of R49 and R52. -/
def Instr.wf (cfg : Config) : Instr → Bool
  | .first _ => true
  | .lit _ => true
  | .blkReuse g2 => gammaOk cfg g2
  | .blk g1 _ g2 => gammaOk cfg g1 && gammaOk cfg g2
  | .shb sv => decide (2 ≤ sv.toNat)
  | .endStream sv => decide (sv.toNat ≤ 1)
  | .sbZero => true
  | .sbCopy d => decide (d ≠ 0)

end Sys2Proof
end

