-- ==== Sys2Proof/Decode.lean ====
section
/-! DEFINITION. The bit reader (40_bit_reader.md), the decoder of one operation (R62, R63, R76 to R84: the reading half
of each operation's pseudocode), and the encoder (R47, R50, R54).  In every operation all reads of the input come
before every other write (42_opcodes.md), so decoding the whole operation first and executing it afterwards is the
pseudocode's own order. -/

namespace Sys2Proof

/-! ## The bit reader -/

/-- Sequencing of reads: a raise ends the operation at once (R62, R92). -/
def Read.bind {α β : Type} (r : Read α) (k : α → Cursor → Read β) : Read β :=
  match r with
  | .done v c => k v c
  | .raised f c => .raised f c

/-- `InByte()` (R32): the next byte of the input, or `UnexpectedEndOfInput` with the cursor not advanced. -/
def inByte (input : List Byte) (c : Cursor) : Read Byte :=
  match input[c.inPos]? with
  | none => .raised .unexpectedEndOfInput c
  | some v => .done v { c with inPos := c.inPos + 1 }

/-- `ReadBit()` (R55): the tag is reloaded only when a bit is needed and none remains (R106). -/
def readBit (input : List Byte) (c : Cursor) : Read Bool :=
  if c.bitCount = 0 then
    (inByte input c).bind fun v c' => .done v.msb { c' with bitCount := 7, tag := v <<< 1 }
  else
    .done c.tag.msb { c with bitCount := c.bitCount - 1, tag := c.tag <<< 1 }

/-- `ReadByte()` (R56): a raw byte, which leaves `tag` and `bit_count` alone (R107). -/
def readByte (input : List Byte) (c : Cursor) : Read Byte := inByte input c

/-- The bits of the stream the cursor can still reach: those left in the tag and those of the bytes not consumed. -/
def bitsLeft (input : List Byte) (c : Cursor) : Nat := c.bitCount.toNat + 8 * (input.length - c.inPos)

/-- The overflow test of R57: `acc >= 2^(NUM_BITS-1)`, so that the next fold would not fit in NUM_BITS bits. -/
def gammaFull (cfg : Config) (acc : Nat) : Bool :=
  match cfg.numBits with
  | none => false
  | some n => decide (2 ^ (n - 1) ≤ acc)

/-- The loop of R57. `fuel` bounds the iterations; with `fuel = bitsLeft` it never runs out before the input does, so
that the first case answers what the continuation bit's own read would (Laws/Reader.lean, `gammaLoop_unfold`). -/
def gammaLoop (cfg : Config) (input : List Byte) : Nat → Nat → Cursor → Read Nat
  | 0, _, c => .raised .unexpectedEndOfInput c
  | fuel + 1, acc, c =>
    (readBit input c).bind fun cont c1 =>
      if cont then
        if gammaFull cfg acc then .raised .numberOverflow c1
        else (readBit input c1).bind fun d c2 => gammaLoop cfg input fuel (acc * 2 + d.toNat) c2
      else .done acc c1

/-- `ReadGamma()` (R57). -/
def readGamma (cfg : Config) (input : List Byte) (c : Cursor) : Read Nat :=
  (readBit input c).bind fun d c1 => gammaLoop cfg input (bitsLeft input c1) (1 * 2 + d.toNat) c1

/-- `ReadFixed(n, acc)` (R58), most significant bit first. -/
def readFixed (input : List Byte) : Nat → Nat → Cursor → Read Nat
  | 0, acc, c => .done acc c
  | n + 1, acc, c => (readBit input c).bind fun b c1 => readFixed input n (acc * 2 + b.toNat) c1

/-- The loop of R59, with `count` bits counted so far and at most `left` more to read. -/
def unaryLoop (input : List Byte) (set : Bool) : Nat → Nat → Cursor → Read Nat
  | 0, count, c => .done count c
  | left + 1, count, c =>
    (readBit input c).bind fun b c1 => if b = set then unaryLoop input set left (count + 1) c1 else .done count c1

/-- `ReadUnary(max, set)` (R59). -/
def readUnary (input : List Byte) (max : Nat) (set : Bool) (c : Cursor) : Read Nat := unaryLoop input set max 0 c

/-! ## The decoder -/

/-- The opcode of a unary count (R63). The count is at most 3 (R64), so the last case is the count 3. -/
def Opcode.ofCount : Nat → Opcode
  | 0 => .literal
  | 1 => .block
  | 2 => .shortBlock
  | _ => .singleByte

/-- Continue with a read made under the label `cur` (R62); a raise takes that label with it. -/
def Read.under {α : Type} (cur : OpLabel) (r : Read α) (k : α → Cursor → Decoded) : Decoded :=
  match r with
  | .done v c => k v c
  | .raised f c => .raised f cur c

/-- The reads of FIRST (R76). -/
def decodeFirst (input : List Byte) (c : Cursor) : Decoded :=
  (readByte input c).under .first fun l c1 => .instr (.first l) c1

/-- The reads of LITERAL (R77). -/
def decodeLiteral (input : List Byte) (c : Cursor) : Decoded :=
  (readByte input c).under .lit fun l c1 => .instr (.lit l) c1

/-- The reads of BLOCK: `G1`, and then those of BLK_REUSE (R78) when `G1` = 2 and `pair` = 1, those of BLK (R79) in
every other case, the odd form of R80 among them. -/
def decodeBlock (cfg : Config) (pair : Bool) (input : List Byte) (c : Cursor) : Decoded :=
  (readGamma cfg input c).under .block fun g1 c1 =>
    if g1 = 2 ∧ pair = true then
      (readGamma cfg input c1).under .block fun g2 c2 => .instr (.blkReuse g2) c2
    else
      (readByte input c1).under .block fun lo c2 =>
        (readGamma cfg input c2).under .block fun g2 c3 => .instr (.blk g1 lo g2) c3

/-- The reads of SHORT BLOCK: `S`, which selects END when it is 0 or 1 (R82) and SHB otherwise (R81). -/
def decodeShort (input : List Byte) (c : Cursor) : Decoded :=
  (readByte input c).under .short fun sv c1 =>
    if sv.toNat ≤ 1 then .instr (.endStream sv) c1 else .instr (.shb sv) c1

/-- The reads of SINGLE BYTE: the four bits of `D`, which select SB_ZERO when 0 (R83) and SB_COPY otherwise (R84). -/
def decodeSingle (input : List Byte) (c : Cursor) : Decoded :=
  (readFixed input 4 0 c).under .single fun d c1 =>
    if d = 0 then .instr .sbZero c1 else .instr (.sbCopy (BitVec.ofNat 4 d)) c1

/-- One opcode: the prefix under the label PREFIX, then the opcode's own reads (R62, R63). -/
def decodeOpcode (cfg : Config) (pair : Bool) (input : List Byte) (c : Cursor) : Decoded :=
  (readUnary input 3 true c).under .opPrefix fun n c1 =>
    match Opcode.ofCount n with
    | .literal => decodeLiteral input c1
    | .block => decodeBlock cfg pair input c1
    | .shortBlock => decodeShort input c1
    | .singleByte => decodeSingle input c1

/-- One operation: FIRST when it is the first of the session, an opcode otherwise (R62). Total on any input: a stream
that spells no whole operation answers the fault of R86 that its pseudocode raises. -/
def decode (cfg : Config) (isFirst pair : Bool) (input : List Byte) (c : Cursor) : Decoded :=
  if isFirst then decodeFirst input c else decodeOpcode cfg pair input c

/-! ## The encoder -/

/-- The gamma code of `v >= 2` (R50): for each bit of `v` below its leading 1, from the most significant down, the
data bit and a continuation bit, which is 0 for the last pair and 1 before it. -/
def gammaCode (v : Nat) : List Bool :=
  (List.range (Nat.log2 v)).reverse.flatMap fun j => [v.testBit j, j != 0]

/-- The prefix of an opcode in read order (R48). -/
def Opcode.code : Opcode → List Bool
  | .literal => [false]
  | .block => [true, false]
  | .shortBlock => [true, true, false]
  | .singleByte => [true, true, true]

/-- The four bits of `D`, most significant first (R49). -/
def bits4 (d : BitVec 4) : List Bool := [d.getLsbD 3, d.getLsbD 2, d.getLsbD 1, d.getLsbD 0]

/-- The items an operation is spelled with, in stream order (R49). -/
def items : Instr → List Item
  | .first l => [.raw l]
  | .lit l => Opcode.literal.code.map .bit ++ [.raw l]
  | .blkReuse g2 => (Opcode.block.code ++ gammaCode 2 ++ gammaCode g2).map .bit
  | .blk g1 lo g2 => (Opcode.block.code ++ gammaCode g1).map .bit ++ [.raw lo] ++ (gammaCode g2).map .bit
  | .shb sv => Opcode.shortBlock.code.map .bit ++ [.raw sv]
  | .endStream sv => Opcode.shortBlock.code.map .bit ++ [.raw sv]
  | .sbZero => (Opcode.singleByte.code ++ bits4 0).map .bit
  | .sbCopy d => (Opcode.singleByte.code ++ bits4 d).map .bit

/-- The bits among the items, in order: the bit sequence of R46. -/
def bitsOf : List Item → List Bool
  | [] => []
  | .bit b :: is => b :: bitsOf is
  | .raw _ :: is => bitsOf is

/-- The number spelled by the first `n` bits, most significant first; missing bits are 0 (R54). -/
def bitsVal : Nat → List Bool → Nat
  | 0, _ => 0
  | _ + 1, [] => 0
  | n + 1, b :: bs => b.toNat * 2 ^ n + bitsVal n bs

/-- The tag byte that holds the first 8 bits of a list, first bit in bit 7 (R37); bits it never uses are 0 (R54). -/
def tagByte (bs : List Bool) : Byte := BitVec.ofNat 8 (bitsVal 8 bs)

/-- The packing of R47 and R54, with `free` bits unused in the current tag byte: a raw byte is placed where it is
produced, and a tag byte is placed at the first bit that does not fit in the one before it. A tag byte holds that bit
and the seven bits produced after it, whatever raw bytes stand between them. -/
def pack : Nat → List Item → List Byte
  | _, [] => []
  | free, .raw v :: is => v :: pack free is
  | 0, .bit b :: is => tagByte (b :: bitsOf is) :: pack 7 is
  | free + 1, .bit _ :: is => pack free is

/-- The bytes of one operation that begins where no tag bit is left. -/
def encode (i : Instr) : List Byte := pack 0 (items i)

/-- The bytes of a stream of operations (R45, R54). -/
def assemble (is : List Instr) : List Byte := pack 0 (is.flatMap items)

/-- The selecting condition of R49 that a stream's own context decides: FIRST is the first operation of a session and
no other is, and `pair` parts the two forms of BLOCK. -/
def Instr.selected (isFirst pair : Bool) : Instr → Bool
  | .first _ => isFirst
  | .blkReuse _ => !isFirst && pair
  | .blk g1 _ _ => !isFirst && !(decide (g1 = 2) && pair)
  | .lit _ | .shb _ | .endStream _ | .sbZero | .sbCopy _ => !isFirst

/-- `pair` after an operation (R14's table): 1 after FIRST, LIT, SB_ZERO and SB_COPY, 0 after BLK_REUSE, BLK and SHB,
unchanged by END. The meanings of Machine/ set the flag themselves; this says it of a stream being read or written. -/
def Instr.pairAfter (pair : Bool) : Instr → Bool
  | .first _ | .lit _ | .sbZero | .sbCopy _ => true
  | .blkReuse _ | .blk _ _ _ | .shb _ => false
  | .endStream _ => pair

/-- A list of operations that a stream can spell in order, `pair` carried along (R45, R54). -/
def streamOk (cfg : Config) : Bool → Bool → List Instr → Bool
  | _, _, [] => true
  | isFirst, pair, i :: is => i.wf cfg && i.selected isFirst pair && streamOk cfg false (i.pairAfter pair) is

/-- Decoding `n` operations one after another, `pair` carried along as R14 says; `isFirst` for the first of them.
`none` when one of them raises a fault. -/
def decodeMany (cfg : Config) (input : List Byte) : Nat → Bool → Bool → Cursor → Option (List Instr)
  | 0, _, _, _ => some []
  | n + 1, isFirst, pair, c =>
    match decode cfg isFirst pair input c with
    | .instr i c' => (decodeMany cfg input n false (i.pairAfter pair) c').map (i :: ·)
    | .raised _ _ _ => none

/-! ## The table's words -/

/-- The stream order of the bits of a table word's first byte: R48 numbers the prefix window with bit 2 the first bit
read, and the bits the table does not number follow it (assumption 9). -/
def windowByte (w : Nat) : Byte :=
  tagByte [w.testBit 2, w.testBit 1, w.testBit 0, w.testBit 3, w.testBit 4, w.testBit 5, w.testBit 6, w.testBit 7]

/-- The whole bytes of a word above its first byte, lowest first. -/
def upperBytes : Nat → Nat → List Byte
  | 0, _ => []
  | n + 1, w => BitVec.ofNat 8 w :: upperBytes n (w / 256)

/-- The stream bytes of a table word: the word's bytes in order and then zeros. The row FIRST has no numbered bits, so
0 bits stand for it, and its literal is the word's low byte (assumption 9). -/
def tableBytes (nbits w : Nat) : List Byte :=
  if nbits = 0 then [BitVec.ofNat 8 w, 0, 0, 0, 0]
  else windowByte w :: upperBytes ((nbits + 7) / 8 - 1) (w / 256) ++ [0, 0, 0, 0]

/-- The instruction the decoder reads from a table word: FIRST for the row without bits, and for any other row the
opcode that stands right after FIRST, where no tag bit is left and `pair` = 1 (R76; assumption 9). -/
def decodeTableWord (nbits w : Nat) : Option Instr :=
  match decode .reference (nbits == 0) true (tableBytes nbits w) ⟨0, 0, 0⟩ with
  | .instr i _ => some i
  | .raised _ _ _ => none

end Sys2Proof
end

