-- ==== Sys2Proof/Machine/State.lean ====
section
/-! DEFINITION. The state record of R10, the bindings of the session (R31), the reasons a step can stop, and the state
after reset (R29, R101). -/

namespace Sys2Proof.Machine

/-- The session state `fsm` (R18). The values 5 to 7 are never taken. -/
inductive Fsm where
  | idle | start | running | terminated | failed
deriving DecidableEq, Repr

/-- OUT, the output buffer (R34), as the bytes that have been written: (index, byte) pairs in the one canonical form
`Memory.wf` (Machine/Ops.lean). -/
abbrev Memory := List Host.Cell

/-- Everything that persists between two operations (R10, R66), the parameters (R5), the bindings of the session
(R31), and the model's own count of draws. The working registers of R21 have no value between operations and are the
bound variables of the meanings. -/
structure State where
  /-- The parameters of R5, which no move changes (assumption 1). -/
  cfg : Config
  /-- IN: the bytes `in[0..N-1]` bound by the start command; N is its length (R31, R102). -/
  input : List Byte
  /-- `in_pos` (R17). -/
  inPos : Nat
  /-- `bit_count` (R11). -/
  bitCount : BitVec 3
  /-- `tag` (R12). -/
  tag : Byte
  /-- `pair`, the only condition flag (R14). -/
  pair : Bool
  /-- `last_offset` (R15); 0 means not set. -/
  lastOffset : Nat
  /-- `out_len` (R16). -/
  outLen : Nat
  /-- `out_buf` (R34). -/
  out : Memory
  /-- `fsm` (R18). -/
  fsm : Fsm
  /-- `err_code` (R19); `none` is the code 0. -/
  errCode : Option FaultCode
  /-- `err_op` (R19). -/
  errOp : OpLabel
  /-- `err_info` (R19). -/
  errInfo : Nat
  /-- The model's own: how many draws the host's reads have taken (R22, R25, R36; assumption 6). -/
  draws : Nat
deriving DecidableEq, Repr

/-- Why the machine stops. The four faults of R86 are NOT here: each of them is a next state in FAILED (R92). -/
inductive Fault where
  /-- Raised by `step` in IDLE: "no step -- only reset or start moves the core" (R62). Safe: the spec gives no step. -/
  | noStepIdle
  /-- Raised by `step` in TERMINATED (R62, R71). Safe: the spec gives no step. -/
  | noStepTerminated
  /-- Raised by `step` in FAILED (R62, R95). Safe: the spec gives no step. -/
  | noStepFailed
  /-- Raised by the copy engine when it would read a byte of OUT that nothing has written since reset: R34 gives such a
  byte no value. Safe: no state reachable from reset reads one (R35; assumption 5). -/
  | unwrittenOutRead
deriving DecidableEq, Repr

/-- Why the model has no meaning. -/
inductive Refusal where
  /-- Raised by exec's arm of an instruction that has no meaning yet. Safe. -/
  | notModelled (mnemonic : String)
  /-- Raised by every operation, by `step` and by the start command when the parameters break a constraint of R5: "a
  configuration that breaks a constraint of this table is refused" (R5, R13, D25). Safe. -/
  | configurationBroken
  /-- Raised by a meaning applied where the selecting condition of R49 or the `fsm` value of R62 does not hold: `decode`
  never yields the operation there. Safe: no step reaches it (assumption 7). -/
  | formNotSelected
  /-- Raised by the start command in START or RUNNING: "The model gives it no move" (R103). Safe. -/
  | startDuringSession
deriving DecidableEq, Repr

/-- The place of the next bit in the stream (R20). -/
def State.cursor (s : State) : Cursor := ⟨s.inPos, s.bitCount, s.tag⟩

/-- The state after reset of a core with the parameters `cfg` (R29, R101): IDLE, every register 0, no byte of OUT with
a value, no input bound. -/
def State.resetOf (cfg : Config) : State :=
  { cfg := cfg, input := [], inPos := 0, bitCount := 0, tag := 0, pair := false, lastOffset := 0, outLen := 0,
    out := [], fsm := .idle, errCode := none, errOp := .none, errInfo := 0, draws := 0 }

/-- The machine right after reset, with the parameters `Config.reference` (assumption 2). -/
def State.reset : State := State.resetOf .reference

end Sys2Proof.Machine
end

