-- ==== Sys2Proof/Machine/Ops.lean ====
section
/-! DEFINITION. The operations the meanings share: the constraints on the parameters (R5), the selecting conditions
(R49, R62), fault entry (R92) and the way out of a fault (R95), the accesses to OUT (R35), `Append` (R68), `BackCopy`
(R73), `halt` (R70). -/

namespace Sys2Proof

/-- TAG_SIZE is 1 (R5, R13). -/
def Config.tagOk (c : Config) : Bool := c.tagSize == 1

/-- `OUT_CAP >= 1` and `2^NUM_BITS - 1 >= OUT_CAP + 3` (R5). An unbounded OUT_CAP admits only an unbounded NUM_BITS:
no number satisfies the second constraint otherwise. -/
def Config.boundsOk (c : Config) : Bool :=
  match c.outCap, c.numBits with
  | none, none => true
  | none, some _ => false
  | some cap, none => decide (1 ≤ cap)
  | some cap, some n => decide (1 ≤ cap) && decide (cap + 3 ≤ 2 ^ n - 1)

/-- The constraints of R5 on the parameters alone. -/
def Config.valid (c : Config) : Bool := c.tagOk && c.boundsOk

/-- `N < 2^IN_POS_BITS` (R5, D20), for an input of `n` bytes. -/
def Config.admitsInput (c : Config) (n : Nat) : Bool :=
  match c.inPosBits with
  | none => true
  | some w => decide (n < 2 ^ w)

/-- `OUT_CAP - out_len >= n`: `n` more bytes fit in the output buffer (R69). -/
def Config.hasRoom (c : Config) (outLen n : Nat) : Bool :=
  match c.outCap with
  | none => true
  | some cap => decide (outLen + n ≤ cap)

end Sys2Proof

namespace Sys2Proof.Machine

/-! ## OUT -/

/-- What an index of OUT that nothing has written reads as: no value (R29, R34; assumption 5). -/
def Memory.unlisted : Option Byte := none

/-- `MemRead(OUT:a, 1)` (R8, R35). -/
def Memory.read : Memory → Nat → Option Byte
  | [], _ => Memory.unlisted
  | (b, w) :: m, a => if a = b then some w else Memory.read m a

/-- `MemWrite(OUT:a, 1, v)` (R8, R35), which keeps the indices rising. -/
def Memory.write : Memory → Nat → Byte → Memory
  | [], a, v => [(a, v)]
  | (b, w) :: m, a, v =>
    if a < b then (a, v) :: (b, w) :: m
    else if a = b then (a, v) :: m
    else (b, w) :: Memory.write m a v

/-- Every index listed is at least `k`, and the indices rise strictly. -/
def Memory.risesFrom : Nat → Memory → Bool
  | _, [] => true
  | k, (a, _) :: m => decide (k ≤ a) && Memory.risesFrom (a + 1) m

/-- The canonical form: indices strictly rising. No entry equals what an unlisted index reads as, since an entry is a
byte and an unlisted index reads as no value. -/
def Memory.wf (m : Memory) : Bool := Memory.risesFrom 0 m

/-! ## Named updates of the state -/

/-- The state with the stream read up to `c`: what a decoded operation's reads wrote (R11, R12, R17). -/
def State.withCursor (s : State) (c : Cursor) : State :=
  { s with inPos := c.inPos, bitCount := c.bitCount, tag := c.tag }

/-- `pair <- b` (R14). -/
def State.setPair (s : State) (b : Bool) : State := { s with pair := b }

/-- `last_offset <- o` (R15). -/
def State.setLastOffset (s : State) (o : Nat) : State := { s with lastOffset := o }

/-- `fsm <- f` (R67). -/
def State.setFsm (s : State) (f : Fsm) : State := { s with fsm := f }

/-- `out_buf[out_len] <- v` followed at once by `out_len <- out_len + 1`: the only write of OUT (R35). -/
def State.putByte (s : State) (v : Byte) : State :=
  { s with out := s.out.write s.outLen v, outLen := s.outLen + 1 }

/-- Fault entry, `raise F(info)` (R92): the fault record and FAILED; every other register keeps its value. -/
def State.raise (s : State) (f : FaultCode) (cur : OpLabel) (info : Nat) : State :=
  { s with errCode := some f, errOp := cur, errInfo := info, fsm := .failed }

/-- The registers at their session-start values (R29): the one way out of a fault beside reset (R95). OUT and the
draws taken are unchanged. -/
def State.sessionStart (s : State) (input : List Byte) : State :=
  { s with input := input, inPos := 0, bitCount := 0, tag := 0, pair := false, lastOffset := 0, outLen := 0,
           errCode := none, errOp := .none, errInfo := 0, fsm := .start }

/-! ## The flow of one operation -/

/-- Where an operation's pseudocode stands: it goes on, it has been ended by a raise (R92: "and then abandons the rest of
the step"), or the model stops. -/
inductive Flow where
  | go (s : State)
  | ended (s : State)
  | stopped (f : Fault)
deriving DecidableEq, Repr

/-- The next statement of the pseudocode, which runs only if nothing was raised before it (R93). -/
def Flow.andThen (x : Flow) (k : State → Flow) : Flow :=
  match x with
  | .go s => k s
  | .ended s => .ended s
  | .stopped f => .stopped f

/-- The step an operation makes: completed or failed, it is a next state. -/
def Flow.outcome : Flow → Host.Outcome State Fault Refusal
  | .go s => .next s
  | .ended s => .next s
  | .stopped f => .fault f

/-- The parameters satisfy R5, for the input bound. -/
def configured (s : State) : Bool := s.cfg.valid && s.cfg.admitsInput s.input.length

/-- A session is in progress: START or RUNNING, where a step fires (R62). -/
def inSession (s : State) : Bool := decide (s.fsm = .start) || decide (s.fsm = .running)

/-- The operation is one that `decode` can yield in this state: its operands are in range, the selecting condition of
R49 holds, and a step fires (R62). -/
def selects (i : Instr) (s : State) : Bool :=
  i.wf s.cfg && inSession s && i.selected (decide (s.fsm = .start)) s.pair

/-- One operation (R9, R62): its pseudocode `body`, where the parameters are legal (R5) and the form is selected. -/
def operation (i : Instr) (s : State) (body : State → Flow) : Host.Outcome State Fault Refusal :=
  if configured s then
    if selects i s then (body s).outcome else .refused .formNotSelected
  else .refused .configurationBroken

/-! ## The output operations -/

/-- `Append(v)` (R68) under the label `cur`, with the check of R69. -/
def append (cur : OpLabel) (v : Byte) (s : State) : Flow :=
  if s.cfg.hasRoom s.outLen 1 then .go (s.putByte v) else .ended (s.raise .outputCapacityExceeded cur 1)

/-- The loop of R73: `n` bytes, one after another, each a valid source for the ones after it. -/
def copyLoop (offset : Nat) : Nat → State → Flow
  | 0, s => .go s
  | n + 1, s =>
    match s.out.read (s.outLen - offset) with
    | none => .stopped .unwrittenOutRead
    | some v => copyLoop offset n (s.putByte v)

/-- `BackCopy(offset, length)` (R73) under the label `cur`: the offset check of R72, then the capacity check of R69,
both before the first byte is read or written (R75). -/
def backCopy (cur : OpLabel) (offset length : Nat) (s : State) : Flow :=
  if offset = 0 ∨ s.outLen < offset then .ended (s.raise .invalidBackReference cur offset)
  else if s.cfg.hasRoom s.outLen length then copyLoop offset length s
  else .ended (s.raise .outputCapacityExceeded cur length)

/-- `halt TERMINATED` (R70). -/
def halt (s : State) : Flow := .go (s.setFsm .terminated)

end Sys2Proof.Machine
end

