-- ==== Sys2Proof/Machine/Flags.lean ====
section
/-! DEFINITION. The one flag, `pair` (R14): its two writes. END writes it neither way. -/

namespace Sys2Proof.Machine

/-- `pair <- 1`, after a single-unit emission: FIRST, LIT, SB_ZERO, SB_COPY (R14). -/
def markSingleUnit (s : State) : Flow := .go (s.setPair true)

/-- `pair <- 0`, after a block: BLK_REUSE, BLK, SHB (R14). -/
def markBlock (s : State) : Flow := .go (s.setPair false)

end Sys2Proof.Machine
end

