-- ==== Sys2Proof/Machine/Operands.lean ====
section
/-! DEFINITION. Operand assembly: the offset and length of every copy (R51, R52). All arithmetic is exact on naturals
(R7, R85). -/

namespace Sys2Proof.Machine

/-- `b = G1 - 2 - pair` of BLK (R51): not negative where BLK is selected, since `pair` = 1 there implies `G1 >= 3`. -/
def blockHigh (g1 : Nat) (pair : Bool) : Nat := g1 - 2 - pair.toNat

/-- `offset = b*256 + LO` of BLK (R51). -/
def blockOffset (g1 : Nat) (pair : Bool) (lo : Byte) : Nat := blockHigh g1 pair * 256 + lo.toNat

/-- The length correction `corr(offset)` (R51's table, R79). -/
def lengthCorrection (offset : Nat) : Nat :=
  if offset < 0x80 ∨ 0x7D00 ≤ offset then 2 else if 0x500 ≤ offset then 1 else 0

/-- `length = G2 + corr(offset)` of BLK (R51). -/
def blockLength (offset g2 : Nat) : Nat := g2 + lengthCorrection offset

/-- `offset = S >> 1` of SHB (R52). -/
def shortOffset (sv : Byte) : Nat := sv.toNat >>> 1

/-- `length = 2 + S[0]` of SHB (R52). -/
def shortLength (sv : Byte) : Nat := 2 + (sv.getLsbD 0).toNat

/-- `offset = D` of SB_COPY (R52). -/
def singleOffset (d : BitVec 4) : Nat := d.toNat

end Sys2Proof.Machine
end

