-- ==== Sys2Proof/Machine/Block.lean ====
section
/-! DEFINITION. The two forms of BLOCK: BLK_REUSE (R78) and BLK (R79, R80). `G1`, `LO` and `G2` have been read by the
decoder. Both write `last_offset` before the copy and its checks (C7). -/

namespace Sys2Proof.Machine

/-- BLK_REUSE (R78): `last_offset` is written with its own value, the length is `G2` with no correction. -/
def execBlkReuse (g2 : Nat) (s : State) : Host.Outcome State Fault Refusal :=
  operation (.blkReuse g2) s fun s =>
    (backCopy .block s.lastOffset g2 (s.setLastOffset s.lastOffset)).andThen markBlock

/-- BLK (R79), the odd form `G1` = 2 with `pair` = 0 (R80) run by the same rule. -/
def execBlk (g1 : Nat) (lo : Byte) (g2 : Nat) (s : State) : Host.Outcome State Fault Refusal :=
  operation (.blk g1 lo g2) s fun s =>
    let offset := blockOffset g1 s.pair lo
    (backCopy .block offset (blockLength offset g2) (s.setLastOffset offset)).andThen markBlock

end Sys2Proof.Machine
end

