-- ==== Sys2Proof/Machine/Literal.lean ====
section
/-! DEFINITION. FIRST (R76) and LIT (R77). The raw byte `L` has been read by the decoder. -/

namespace Sys2Proof.Machine

/-- FIRST (R76), and the `fsm <- RUNNING` that R62 puts after it: neither happens once `Append` has raised. -/
def execFirst (l : Byte) (s : State) : Host.Outcome State Fault Refusal :=
  operation (.first l) s fun s =>
    (append .first l s).andThen fun s => (markSingleUnit s).andThen fun s => .go (s.setFsm .running)

/-- LIT (R77). -/
def execLit (l : Byte) (s : State) : Host.Outcome State Fault Refusal :=
  operation (.lit l) s fun s => (append .lit l s).andThen markSingleUnit

end Sys2Proof.Machine
end

