-- ==== Sys2Proof/Machine/ShortBlock.lean ====
section
/-! DEFINITION. The two forms of SHORT BLOCK: SHB (R81) and END (R82). The raw byte `S` has been read by the decoder. -/

namespace Sys2Proof.Machine

/-- SHB (R81): the copy comes before the writes of `last_offset` and `pair`, so a fault in it leaves both alone. -/
def execShb (sv : Byte) (s : State) : Host.Outcome State Fault Refusal :=
  operation (.shb sv) s fun s =>
    (backCopy .short (shortOffset sv) (shortLength sv) s).andThen fun s =>
      markBlock (s.setLastOffset (shortOffset sv))

/-- END (R82): the session ends successfully, for `S` = 0 and `S` = 1 alike. -/
def execEndStream (sv : Byte) (s : State) : Host.Outcome State Fault Refusal :=
  operation (.endStream sv) s halt

end Sys2Proof.Machine
end

