-- ==== Sys2Proof/Machine/SingleByte.lean ====
section
/-! DEFINITION. The two forms of SINGLE BYTE: SB_ZERO (R83) and SB_COPY (R84). `D` has been read by the decoder. Neither
writes `last_offset` (D7). -/

namespace Sys2Proof.Machine

/-- SB_ZERO (R83). -/
def execSbZero (s : State) : Host.Outcome State Fault Refusal :=
  operation .sbZero s fun s => (append .single 0x00 s).andThen markSingleUnit

/-- SB_COPY (R84): one byte from distance `D`. -/
def execSbCopy (d : BitVec 4) (s : State) : Host.Outcome State Fault Refusal :=
  operation (.sbCopy d) s fun s => (backCopy .single (singleOffset d) 1 s).andThen markSingleUnit

end Sys2Proof.Machine
end

