-- ==== Sys2Proof/Machine/Dispatch.lean ====
section
/-! DEFINITION. The meaning of each operation, one arm per row of spec/opcode_table.json. -/

namespace Sys2Proof.Machine

def exec (i : Instr) (s : State) : Host.Outcome State Fault Refusal :=
  match i with
  | .first l => Sys2Proof.Machine.execFirst l s
  | .lit l => Sys2Proof.Machine.execLit l s
  | .blkReuse g2 => Sys2Proof.Machine.execBlkReuse g2 s
  | .blk g1 lo g2 => Sys2Proof.Machine.execBlk g1 lo g2 s
  | .shb sv => Sys2Proof.Machine.execShb sv s
  | .endStream sv => Sys2Proof.Machine.execEndStream sv s
  | .sbZero => Sys2Proof.Machine.execSbZero s
  | .sbCopy d => Sys2Proof.Machine.execSbCopy d s

end Sys2Proof.Machine
end

