-- ==== Sys2Proof/Machine/Session.lean ====
section
/-! DEFINITION. One step of a session (R62): fetch and decode at the cursor, then run the operation. -/

namespace Sys2Proof.Machine

/-- The next operation of the stream, decoded at the cursor (R20): FIRST in START, an opcode otherwise (R62). -/
def fetch (s : State) : Decoded := decode s.cfg (decide (s.fsm = .start)) s.pair s.input s.cursor

/-- The firing of R62: the decoded operation runs in the state its reads leave; a fault raised by a read enters FAILED
from the state at the raise (R92, R93), with `err_info` = 0 (R87, R91). -/
def fire (s : State) : Host.Outcome State Fault Refusal :=
  match fetch s with
  | .instr i c => exec i (s.withCursor c)
  | .raised f cur c => .next ((s.withCursor c).raise f cur 0)

/-- `Step()` of R62: it fires in START and RUNNING only. -/
def sessionStep (s : State) : Host.Outcome State Fault Refusal :=
  if configured s then
    match s.fsm with
    | .idle => .fault .noStepIdle
    | .start => fire s
    | .running => fire s
    | .terminated => .fault .noStepTerminated
    | .failed => .fault .noStepFailed
  else .refused .configurationBroken

/-- A session whose next operation is spelled by `bytes`: FIRST in START for the row without bits, an opcode in
RUNNING with `pair` = 1 for any other, in either case with no tag bit left (assumption 9). -/
def State.placeStream (s : State) (isFirst : Bool) (bytes : List Byte) : State :=
  { s with input := bytes, inPos := 0, bitCount := 0, tag := 0,
           pair := if isFirst then s.pair else true,
           fsm := if isFirst then .start else .running }

end Sys2Proof.Machine
end

