-- ==== Sys2Proof/Machine/Step.lean ====
section
/-! DEFINITION. The step of the machine (R62), and the placing of a table word where the next step fetches. -/

namespace Sys2Proof.Machine

/-- One step: one operation of the session (R9, R62). -/
def step (s : State) : Host.Outcome State Fault Refusal := sessionStep s

/-- `s` with a table word's instruction as the next operation of a running session. It stands for the host's work of R104
(binding the input, the start command) and, for an opcode, for the FIRST that has run before it (assumption 9). -/
def State.withFetchWord (s : State) (nbits w : Nat) : State := s.placeStream (nbits == 0) (tableBytes nbits w)

end Sys2Proof.Machine
end

