-- ==== Sys2Proof/Machine/HostPort.lean ====
section
/-! DEFINITION. The host's side of the core: the reset line (R101), the seven register indices (R22 to R25), the start
command (R102, R103) and the read port on OUT (R36). A host move falls between two steps (R66). -/

namespace Sys2Proof.Machine

/-! ## Codes -/

/-- The value of `fsm` in STATUS.STATE (R18). -/
def Fsm.code : Fsm → BitVec 3
  | .idle => 0
  | .start => 1
  | .running => 2
  | .terminated => 3
  | .failed => 4

/-- The code of a fault (R86). -/
def faultNumber : FaultCode → BitVec 3
  | .unexpectedEndOfInput => 1
  | .invalidBackReference => 2
  | .outputCapacityExceeded => 3
  | .numberOverflow => 4

/-- The value of `err_code` (R19): 0 for none. -/
def errNumber : Option FaultCode → BitVec 3
  | none => 0
  | some f => faultNumber f

/-- The value of `err_op` (R19). -/
def opNumber : OpLabel → BitVec 3
  | .none => 0
  | .first => 1
  | .opPrefix => 2
  | .lit => 3
  | .block => 4
  | .short => 5
  | .single => 6

/-! ## Registers -/

/-- STATUS (R24): ERR_OP, a reserved 0, ERR_CODE, a reserved 0, STATE. -/
def statusWord (s : State) : BitVec 11 :=
  opNumber s.errOp ++ (0 : BitVec 1) ++ errNumber s.errCode ++ (0 : BitVec 1) ++ s.fsm.code

/-- CONTEXT (R25): TAG, four reserved 0s, BIT_COUNT, PAIR. -/
def contextWord (s : State) : BitVec 16 := s.tag ++ (0 : BitVec 4) ++ s.bitCount ++ BitVec.ofBool s.pair

/-- The width of OUT_LEN, that of `out_len` (R22). DESIGN CHOICE (assumption 6): R10 says only "enough bits for
0..OUT_CAP", and the model takes the least such width; it bounds nothing but the draw of OUT_LEN. -/
def outLenBits (cfg : Config) : Option Nat := cfg.outCap.map fun cap => Nat.log2 cap + 1

/-- A draw of the given width, unbounded where the width is (R22, R25, R36; assumption 6). -/
def drawValue (width : Option Nat) (s : State) : Nat :=
  match width with
  | none => Config.freeValue s.draws
  | some w => Config.freeValue s.draws % 2 ^ w

/-- The state after a draw: only the model's own count changes. -/
def State.drawn (s : State) : State := { s with draws := s.draws + 1 }

/-- A register that is exact in IDLE, TERMINATED and FAILED and a draw in START and RUNNING (R25). The draw has the whole
width of the register. -/
def quietRead (s : State) (value : Nat) (width : Option Nat) : Nat × State :=
  if inSession s then (drawValue width s, s.drawn) else (value, s)

/-- A host read of a register index (R22 to R25): the value, and the state after the read. DESIGN CHOICE (assumption 6):
in START and RUNNING the draw of CONTEXT takes all its 16 bits, the reserved `CONTEXT[7:4]` among them. R25 and U8 make
the read of CONTEXT any value, where U7 calls those four bits 0 and no draw; outside a session they read 0. -/
def readRegister (index : Nat) (s : State) : Nat × State :=
  match index with
  | 0 => (0, s)
  | 1 => ((statusWord s).toNat, s)
  | 2 => quietRead s s.outLen (outLenBits s.cfg)
  | 3 => quietRead s s.inPos s.cfg.inPosBits
  | 4 => quietRead s s.errInfo s.cfg.offBits
  | 5 => quietRead s (contextWord s).toNat (some 16)
  | 6 => quietRead s s.lastOffset s.cfg.offBits
  | _ => (drawValue none s, s.drawn)

/-- A host read of OUT (R36): exact below `out_len` in TERMINATED, a draw in every other case. -/
def readOut (i : Nat) (s : State) : Byte × State :=
  if s.fsm = .terminated ∧ i < s.outLen then
    match s.out.read i with
    | some v => (v, s)
    | none => (BitVec.ofNat 8 (drawValue (some 8) s), s.drawn)
  else (BitVec.ofNat 8 (drawValue (some 8) s), s.drawn)

/-! ## Moves -/

/-- Reset (R101), in any state: every register at its value of R29, OUT unspecified, no fault recorded. The parameters
stay, and so does the count of draws. -/
def resetMove (s : State) : State := { State.resetOf s.cfg with draws := s.draws }

/-- The start command (R102) with the sequence the input provider will deliver. No move in START or RUNNING (R103); an
input too long for IN_POS_BITS is refused with the parameters (R5, D20). -/
def startMove (input : List Byte) (s : State) : Host.Outcome State Fault Refusal :=
  if s.cfg.valid && s.cfg.admitsInput input.length then
    if inSession s then .refused .startDuringSession else .next (s.sessionStart input)
  else .refused .configurationBroken

/-- A host write (R22, R23): bit 0 of CTRL set issues the start command; every other write has no effect. -/
def writeRegister (index value : Nat) (input : List Byte) (s : State) : Host.Outcome State Fault Refusal :=
  if index = 0 ∧ value % 2 = 1 then startMove input s else .next s

/-- The moves of the core and of its host: the step (R62), the reset line (R101), a register write with the input the
provider will deliver (R23, R102), and the two reads (R22, R36). A change to IN during a session is none of them (R31,
R103). -/
inductive Move where
  | step
  | reset
  | write (index value : Nat) (input : List Byte)
  | readRegister (index : Nat)
  | readOut (i : Nat)
deriving DecidableEq, Repr

/-- One move; with parameters that break R5 the model has no meaning for any of them (D25). -/
def move (m : Move) (s : State) : Host.Outcome State Fault Refusal :=
  if s.cfg.valid then
    match m with
    | .step => step s
    | .reset => .next (resetMove s)
    | .write index value input => writeRegister index value input s
    | .readRegister index => .next (readRegister index s).2
    | .readOut i => .next (readOut i s).2
  else .refused .configurationBroken

end Sys2Proof.Machine
end

