-- ==== Sys2Proof/Machine/Trace.lean ====
section
/-! DEFINITION. The optional trace port (R96): the record a step emits, as a function of the state before it. The port
changes nothing, so nothing of it is in the state. -/

namespace Sys2Proof.Machine

/-- The operand values of a record, "as the form has them" (R96). -/
structure TraceOperands where
  l : Option Nat := none
  g1 : Option Nat := none
  lo : Option Nat := none
  g2 : Option Nat := none
  offset : Option Nat := none
  length : Option Nat := none
  sv : Option Nat := none
  d : Option Nat := none
deriving DecidableEq, Repr

/-- A record of the trace port (R96): a completed operation, or a fault. -/
inductive TraceRecord where
  | operation (mnemonic : String) (operands : TraceOperands) (outLen inPos : Nat)
  | fault (errCode : Option FaultCode) (errOp : OpLabel) (errInfo : Nat)
deriving DecidableEq, Repr

/-- The mnemonic of an operation (R49). -/
def mnemonic : Instr → String
  | .first _ => "FIRST"
  | .lit _ => "LIT"
  | .blkReuse _ => "BLK_REUSE"
  | .blk _ _ _ => "BLK"
  | .shb _ => "SHB"
  | .endStream _ => "END"
  | .sbZero => "SB_ZERO"
  | .sbCopy _ => "SB_COPY"

/-- The operand values an operation decoded in the state `s` it runs in (R96, R51, R52; assumption 10). -/
def traceOperands (i : Instr) (s : State) : TraceOperands :=
  match i with
  | .first l => { l := some l.toNat }
  | .lit l => { l := some l.toNat }
  | .blkReuse g2 => { g1 := some 2, g2 := some g2, offset := some s.lastOffset, length := some g2 }
  | .blk g1 lo g2 =>
    { g1 := some g1, lo := some lo.toNat, g2 := some g2, offset := some (blockOffset g1 s.pair lo),
      length := some (blockLength (blockOffset g1 s.pair lo) g2) }
  | .shb sv => { sv := some sv.toNat, offset := some (shortOffset sv), length := some (shortLength sv) }
  | .endStream sv => { sv := some sv.toNat }
  | .sbZero => { d := some 0 }
  | .sbCopy d => { d := some d.toNat, offset := some (singleOffset d), length := some 1 }

/-- The record of the operation `i`, run in `s` and leaving `t`. -/
def recordOf (i : Instr) (s t : State) : TraceRecord :=
  if t.fsm = .failed then .fault t.errCode t.errOp t.errInfo
  else .operation (mnemonic i) (traceOperands i s) t.outLen t.inPos

/-- The record that the step from `s` emits: none without the port, and none where there is no step (R96). -/
def emitted (s : State) : Option TraceRecord :=
  if s.cfg.traceEn then
    match step s with
    | .next t =>
      match fetch s with
      | .instr i c => some (recordOf i (s.withCursor c) t)
      | .raised f cur _ => some (.fault (some f) cur 0)
    | .fault _ => none
    | .refused _ => none
  else none

end Sys2Proof.Machine
end

