-- ==== Sys2Proof/Safety.lean ====
section
/-! DEFINITION. The terms claims are made in: the bits still to be read (R46), the result of a copy (R74), the invariant
of every state reachable from reset (R27), what two states of one session share (R105), and the source's reference
decoder on lists of bytes (R6). -/

namespace Sys2Proof.Machine

/-! ## The bits ahead -/

/-- The top `n` bits of a byte, most significant first (R37). -/
def topBits (n : Nat) (b : Byte) : List Bool := (List.range n).map fun j => b.getMsbD j

/-- The bits `ReadBit` would return from here on if no raw byte were read: those left in the tag, then those of the
input bytes in order (R46). -/
def upcomingBits (input : List Byte) (c : Cursor) : List Bool :=
  topBits c.bitCount.toNat c.tag ++ (input.drop c.inPos).flatMap (topBits 8)

/-- `glen(v)`: the length in bits of the gamma code of `v` (R49). -/
def glen (v : Nat) : Nat := 2 * Nat.log2 v

/-- How many bits an operation reads: the column of R49's table. -/
def bitsRead : Instr → Nat
  | .first _ => 0
  | .lit _ => 1
  | .blkReuse g2 => 2 + 2 + glen g2
  | .blk g1 _ g2 => 2 + glen g1 + glen g2
  | .shb _ => 3
  | .endStream _ => 3
  | .sbZero => 7
  | .sbCopy _ => 7

/-- How many raw bytes an operation reads: the last column of R49's table. -/
def rawRead : Instr → Nat
  | .first _ => 1
  | .lit _ => 1
  | .blkReuse _ => 0
  | .blk _ _ _ => 1
  | .shb _ => 1
  | .endStream _ => 1
  | .sbZero => 0
  | .sbCopy _ => 0

/-! ## Copies -/

/-- Every byte below `out_len` has been written (R34). -/
def Written (s : State) : Prop := ∀ a < s.outLen, (s.out.read a).isSome = true

/-- `t` holds the OUT that a copy of `length` bytes from distance `offset` makes of the OUT of `s`: the closed form of
R74, with the indices below `out_len` and those past the copy unchanged. -/
def Copied (s t : State) (offset length : Nat) : Prop :=
  t.outLen = s.outLen + length ∧
  (∀ i < length, t.out.read (s.outLen + i) = s.out.read (s.outLen - offset + i % offset)) ∧
  ∀ a, a < s.outLen ∨ s.outLen + length ≤ a → t.out.read a = s.out.read a

/-! ## The invariant -/

/-- The session-start values of the registers (R29). -/
def Fresh (s : State) : Prop :=
  s.inPos = 0 ∧ s.bitCount = 0 ∧ s.tag = 0 ∧ s.pair = false ∧ s.lastOffset = 0 ∧ s.outLen = 0

/-- A value of OFF_BITS bits (R5, R10). -/
def FitsOff (cfg : Config) (v : Nat) : Prop := ∀ n, cfg.numBits = some n → v < 2 ^ (n + 8)

/-- What holds of every state reachable from reset (R27), with the facts of R5, R10, R16, R34, R69, R76, R78, R92 and R93
that go with it. -/
structure Inv (s : State) : Prop where
  /-- The parameters satisfy R5. -/
  config : configured s = true
  /-- OUT is in canonical form. -/
  outCanonical : s.out.wf = true
  /-- "Bytes `out_buf[0..out_len-1]` are the output decoded so far" (R34). -/
  outWritten : Written s
  /-- `out_len <= OUT_CAP` (R27). -/
  outWithin : ∀ cap, s.cfg.outCap = some cap → s.outLen ≤ cap
  /-- "No write to OUT may be made at index `OUT_CAP` or above" (R69). -/
  outInside : ∀ cap a, s.cfg.outCap = some cap → (s.out.read a).isSome = true → a < cap
  /-- `in_pos` never passes N (R32). -/
  cursorWithin : s.inPos ≤ s.input.length
  /-- `tag[7 - bit_count : 0] = 0` (R27). -/
  tagTail : s.tag.toNat % 2 ^ (8 - s.bitCount.toNat) = 0
  /-- Outside FAILED, `last_offset = 0` or `1 <= last_offset <= out_len` (R27, C7). -/
  offsetInRange : s.fsm ≠ .failed → s.lastOffset ≤ s.outLen
  /-- Outside FAILED no fault is recorded (R19, R27). -/
  noFault : s.fsm ≠ .failed → s.errCode = none ∧ s.errOp = .none ∧ s.errInfo = 0
  /-- In FAILED a fault is recorded, with the operation that raised it (R27, R92). -/
  faultRecorded : s.fsm = .failed → s.errCode ≠ none ∧ s.errOp ≠ .none
  /-- "after `UnexpectedEndOfInput`, `in_pos = N`" (R93). -/
  endOfData : s.errCode = some .unexpectedEndOfInput → s.inPos = s.input.length
  /-- In IDLE and START every register is at its session-start value (R29, R76). -/
  startFresh : s.fsm = .idle ∨ s.fsm = .start → Fresh s
  /-- After FIRST the output is not empty (R76). -/
  outNonempty : s.fsm = .running ∨ s.fsm = .terminated → 1 ≤ s.outLen
  /-- `last_offset` fits in OFF_BITS bits (R10). -/
  offsetFits : FitsOff s.cfg s.lastOffset
  /-- `err_info` fits in OFF_BITS bits (R10). -/
  infoFits : FitsOff s.cfg s.errInfo

/-- The states a core with the parameters `cfg` can reach from reset by its own steps and its host's moves. -/
inductive Reachable (cfg : Config) : State → Prop where
  | reset : Reachable cfg (State.resetOf cfg)
  | move (s t : State) (m : Move) (hs : Reachable cfg s) (h : move m s = .next t) : Reachable cfg t

/-! ## Two states of one session -/

/-- The two states agree on all that R105 names: the input, OUT_CAP and NUM_BITS, every register, and OUT below
`out_len`. They may differ in what no step reads: the other parameters, OUT at `out_len` and above, and the draws. -/
structure SameSession (s t : State) : Prop where
  input : s.input = t.input
  outCap : s.cfg.outCap = t.cfg.outCap
  numBits : s.cfg.numBits = t.cfg.numBits
  inPos : s.inPos = t.inPos
  bitCount : s.bitCount = t.bitCount
  tag : s.tag = t.tag
  pair : s.pair = t.pair
  lastOffset : s.lastOffset = t.lastOffset
  outLen : s.outLen = t.outLen
  out : ∀ a < s.outLen, s.out.read a = t.out.read a
  fsm : s.fsm = t.fsm
  errCode : s.errCode = t.errCode
  errOp : s.errOp = t.errOp
  errInfo : s.errInfo = t.errInfo

/-- Two outcomes of one kind, the next states related by `rel`, the faults and the refusals equal. -/
def OutcomesAgree (rel : State → State → Prop) : Host.Outcome State Fault Refusal → Host.Outcome State Fault Refusal → Prop
  | .next s, .next t => rel s t
  | .fault f, .fault g => f = g
  | .refused f, .refused g => f = g
  | _, _ => False

/-! ## The reference decoder -/

/-- What the source's decoder keeps: the output as a list of bytes, `pair` and `last_offset` (R6). -/
structure RefState where
  out : List Byte
  pair : Bool
  lastOffset : Nat
deriving DecidableEq, Repr

/-- A back-copy on a list, byte by byte from left to right, each byte a source for the ones after it (R73). -/
def refCopy (offset : Nat) : Nat → List Byte → List Byte
  | 0, out => out
  | n + 1, out => refCopy offset n (out ++ [out.getD (out.length - offset) 0])

/-- A back-reference on a list: none when its distance is not in `1 <= offset <= out_len` (R72). -/
def refBackCopy (offset length : Nat) (out : List Byte) : Option (List Byte) :=
  if 1 ≤ offset ∧ offset ≤ out.length then some (refCopy offset length out) else none

/-- The effect of one operation on a list of bytes, with no bound on the output and no bound on a number (R6, R76 to
R84). `none` is a back-reference out of bounds. -/
def refExec (r : RefState) : Instr → Option RefState
  | .first l => some { r with out := r.out ++ [l], pair := true }
  | .lit l => some { r with out := r.out ++ [l], pair := true }
  | .blkReuse g2 => (refBackCopy r.lastOffset g2 r.out).map fun o => { r with out := o, pair := false }
  | .blk g1 lo g2 =>
    let offset := (g1 - 2 - r.pair.toNat) * 256 + lo.toNat
    let corr := if offset < 0x80 then 2 else if offset < 0x500 then 0 else if offset < 0x7D00 then 1 else 2
    (refBackCopy offset (g2 + corr) r.out).map fun o => { out := o, pair := false, lastOffset := offset }
  | .shb sv =>
    (refBackCopy (sv.toNat / 2) (2 + sv.toNat % 2) r.out).map fun o =>
      { out := o, pair := false, lastOffset := sv.toNat / 2 }
  | .endStream _ => some r
  | .sbZero => some { r with out := r.out ++ [0], pair := true }
  | .sbCopy d => (refBackCopy d.toNat 1 r.out).map fun o => { r with out := o, pair := true }

/-- The effect of a list of operations, one after another. -/
def refRun : RefState → List Instr → Option RefState
  | r, [] => some r
  | r, i :: is => (refExec r i).bind fun r' => refRun r' is

/-- The source's state "created at the start of a single decode call" (R28, R29). -/
def RefState.fresh : RefState := { out := [], pair := false, lastOffset := 0 }

/-- OUT of `s` below `out_len` is the list `out` (R71). -/
def Holds (s : State) (out : List Byte) : Prop :=
  s.outLen = out.length ∧ ∀ i < out.length, s.out.read i = out[i]?

end Sys2Proof.Machine
end

