-- ==== Sys2Proof/Certificates/Slice0/Obligations.lean ====
section
/-! DEFINITION. The statements for the provers. Each docstring names the rule of spec/ the statement formalises; where a
clause rests on a choice of the model, the docstring names the log entry. Room in the output buffer is spelled
`∀ cap, s.cfg.outCap = some cap → …`, which is no condition where OUT_CAP is unbounded (R6). -/

open Sys2Proof Sys2Proof.Machine

/-! ## Encoding -/

/-- Decoding the encoding of an operation gives it back with every operand, at every value the formats of R49 admit and
whatever bytes follow, and consumes exactly its bytes (R47, R49, R50, R52). -/
def Obligations.EncodedOperationDecodesBack : Prop :=
  ∀ (cfg : Config) (i : Instr) (isFirst pair : Bool) (tail : List Byte),
    i.wf cfg = true → i.selected isFirst pair = true →
    ∃ c, decode cfg isFirst pair (encode i ++ tail) ⟨0, 0, 0⟩ = .instr i c ∧ c.inPos = (encode i).length

/-- Decoding an assembled stream gives back its whole list of operations: tag bytes shared between operations, raw bytes
between the tags they cross, and `pair` carried from one operation to the next (R45, R46, R47, R54). -/
def Obligations.AssembledStreamDecodesBack : Prop :=
  ∀ (cfg : Config) (pair : Bool) (ops : List Instr) (tail : List Byte),
    streamOk cfg true pair ops = true →
    decodeMany cfg (assemble ops ++ tail) ops.length true pair ⟨0, 0, 0⟩ = some ops

/-- Whatever the input, a decoded operation has its operands in the ranges of R49, R50 and R52, within NUM_BITS, and is
the form its context selects (R49, R53, R60). -/
def Obligations.DecodedOperationIsInRangeAndSelected : Prop :=
  ∀ (cfg : Config) (isFirst pair : Bool) (input : List Byte) (c c' : Cursor) (i : Instr),
    cfg.valid = true → decode cfg isFirst pair input c = .instr i c' →
    i.wf cfg = true ∧ i.selected isFirst pair = true

/-- An operation's reads take the bits and the raw bytes of R49's table and no others: one byte a raw read and one a reload,
with a reload for every eight bits beyond those in the tag (R20, R49, R61). -/
def Obligations.OperationReadsItsBitsAndBytes : Prop :=
  ∀ (cfg : Config) (isFirst pair : Bool) (input : List Byte) (c c' : Cursor) (i : Instr),
    decode cfg isFirst pair input c = .instr i c' →
    c'.inPos = c.inPos + rawRead i + (bitsRead i - c.bitCount.toNat + 7) / 8 ∧
    (c'.bitCount.toNat + bitsRead i) % 8 = c.bitCount.toNat

/-- R63: the prefix read either runs out of input or counts 0 to 3, consumes the bits of that opcode's prefix and nothing
else, and the count selects the opcode whose reads follow. -/
def Obligations.PrefixCountSelectsOpcode : Prop :=
  ∀ (input : List Byte) (c : Cursor),
    (∃ c', readUnary input 3 true c = .raised .unexpectedEndOfInput c' ∧
      ∀ cfg pair, decodeOpcode cfg pair input c = .raised .unexpectedEndOfInput .opPrefix c') ∨
    (∃ c', readUnary input 3 true c = .done 0 c' ∧ upcomingBits input c = [false] ++ upcomingBits input c' ∧
      ∀ cfg pair, decodeOpcode cfg pair input c = decodeLiteral input c') ∨
    (∃ c', readUnary input 3 true c = .done 1 c' ∧ upcomingBits input c = [true, false] ++ upcomingBits input c' ∧
      ∀ cfg pair, decodeOpcode cfg pair input c = decodeBlock cfg pair input c') ∨
    (∃ c', readUnary input 3 true c = .done 2 c' ∧ upcomingBits input c = [true, true, false] ++ upcomingBits input c' ∧
      ∀ cfg pair, decodeOpcode cfg pair input c = decodeShort input c') ∨
    (∃ c', readUnary input 3 true c = .done 3 c' ∧ upcomingBits input c = [true, true, true] ++ upcomingBits input c' ∧
      ∀ cfg pair, decodeOpcode cfg pair input c = decodeSingle input c')

/-- One word of each operation, written out bit by bit from R49 (vectors W4, OP3, OP5, OP8, OP21, OP27, OP29, OP31),
decodes to it, with the cursor where its bits and raw bytes end. -/
def Obligations.SpelledWordsDecodeToTheirOperations : Prop :=
  decode .reference true false [0x2A, 0xC0, 0x00] ⟨0, 0, 0⟩ = .instr (.first 0x2A) ⟨1, 0, 0⟩ ∧
  decode .reference false true [0b01010010, 0x42] ⟨0, 0, 0⟩ = .instr (.lit 0x42) ⟨2, 7, 0b10100100⟩ ∧
  decode .reference false true [0b10001000] ⟨0, 0, 0⟩ = .instr (.blkReuse 3) ⟨1, 2, 0⟩ ∧
  decode .reference false true [0b10100100, 0x02] ⟨0, 0, 0⟩ = .instr (.blk 3 0x02 4) ⟨2, 0, 0⟩ ∧
  decode .reference false true [0b11000000, 0x03] ⟨0, 0, 0⟩ = .instr (.shb 0x03) ⟨2, 5, 0⟩ ∧
  decode .reference false true [0b11000000, 0x01] ⟨0, 0, 0⟩ = .instr (.endStream 0x01) ⟨2, 5, 0⟩ ∧
  decode .reference false true [0b11100000] ⟨0, 0, 0⟩ = .instr .sbZero ⟨1, 1, 0⟩ ∧
  decode .reference false true [0b11100100] ⟨0, 0, 0⟩ = .instr (.sbCopy 2) ⟨1, 1, 0⟩

/-! ## The bit reader -/

/-- R55: with no bit left the read reloads from the byte at `in_pos`, or raises with nothing changed when there is none;
with bits left it takes the tag's top bit; in either case bit 7 comes out and 0 goes in at bit 0. -/
def Obligations.BitReadReloadsOnlyOnDemand : Prop :=
  ∀ (input : List Byte) (c : Cursor),
    (c.bitCount = 0 → input.length ≤ c.inPos → readBit input c = .raised .unexpectedEndOfInput c) ∧
    (∀ v, c.bitCount = 0 → input[c.inPos]? = some v →
      readBit input c = .done (v.getLsbD 7) { inPos := c.inPos + 1, bitCount := 7, tag := v <<< 1 }) ∧
    (c.bitCount ≠ 0 →
      readBit input c = .done (c.tag.getLsbD 7) { inPos := c.inPos, bitCount := c.bitCount - 1, tag := c.tag <<< 1 })

/-- R56 and R107: a raw byte is the byte at `in_pos`; `tag` and `bit_count` stay, and at end of data nothing changes. -/
def Obligations.RawByteReadLeavesTagAlone : Prop :=
  ∀ (input : List Byte) (c : Cursor),
    (input.length ≤ c.inPos → readByte input c = .raised .unexpectedEndOfInput c) ∧
    ∀ v, input[c.inPos]? = some v →
      readByte input c = .done v { inPos := c.inPos + 1, bitCount := c.bitCount, tag := c.tag }

/-- R58 and R61: a read of `n` bits returns them most significant first above the starting accumulator, leaves the bits
after them as the next ones, reloads once for every eight bits beyond those in the tag, and moves `bit_count` down by `n`
modulo 8; with fewer than `n` bits left it raises, all input consumed. -/
def Obligations.FixedFieldTakesTheUpcomingBits : Prop :=
  ∀ (input : List Byte) (n acc : Nat) (c : Cursor), c.inPos ≤ input.length →
    (n ≤ (upcomingBits input c).length →
      ∃ c', readFixed input n acc c = .done (acc * 2 ^ n + bitsVal n (upcomingBits input c)) c' ∧
        upcomingBits input c' = (upcomingBits input c).drop n ∧
        c'.inPos = c.inPos + (n - c.bitCount.toNat + 7) / 8 ∧
        (c'.bitCount.toNat + n) % 8 = c.bitCount.toNat) ∧
    ((upcomingBits input c).length < n →
      ∃ c', readFixed input n acc c = .raised .unexpectedEndOfInput c' ∧ c'.inPos = input.length)

/-- On the code of `v` (R50) `ReadGamma` returns `v` and consumes the `2*floor(log2 v)` bits of the code (R57, R60). -/
def Obligations.GammaReadInvertsItsCode : Prop :=
  ∀ (cfg : Config) (input : List Byte) (c : Cursor) (v : Nat) (rest : List Bool),
    2 ≤ v → cfg.fitsNum v = true → upcomingBits input c = gammaCode v ++ rest →
    (gammaCode v).length = 2 * Nat.log2 v ∧
    ∃ c', readGamma cfg input c = .done v c' ∧ upcomingBits input c' = rest

/-- What `ReadGamma` returns is at least 2, fits in NUM_BITS bits, and the bits it consumed are that value's code (R57,
R60: "The value and its code determine each other"). -/
def Obligations.GammaReadConsumesTheCodeOfItsResult : Prop :=
  ∀ (cfg : Config) (input : List Byte) (c c' : Cursor) (v : Nat),
    cfg.valid = true → readGamma cfg input c = .done v c' →
    2 ≤ v ∧ cfg.fitsNum v = true ∧ upcomingBits input c = gammaCode v ++ upcomingBits input c'

/-- A value of `2^NUM_BITS` or more raises `NumberOverflow` once the continuation bit after the (NUM_BITS - 1)th data bit
has been read (R57, R60, R91). -/
def Obligations.GammaOverflowRaisesAtItsBit : Prop :=
  ∀ (cfg : Config) (n : Nat) (input : List Byte) (c : Cursor) (v : Nat) (rest : List Bool),
    cfg.numBits = some n → 2 ≤ n → 2 ^ n ≤ v → upcomingBits input c = gammaCode v ++ rest →
    ∃ c', readGamma cfg input c = .raised .numberOverflow c' ∧
      upcomingBits input c' = (upcomingBits input c).drop (2 * (n - 1))

/-- An operation whose bytes are cut off anywhere raises `UnexpectedEndOfInput` with `in_pos` = N, under the label of its
opcode, or PREFIX where not even its first tag byte is there; it is never decoded as something shorter (R19, R62, R87,
R93; vectors FX3 to FX6). -/
def Obligations.TruncatedOperationRunsOutOfInput : Prop :=
  ∀ (cfg : Config) (i : Instr) (isFirst pair : Bool) (n : Nat),
    i.wf cfg = true → i.selected isFirst pair = true → n < (encode i).length →
    ∃ c, c.inPos = n ∧ decode cfg isFirst pair ((encode i).take n) ⟨0, 0, 0⟩ =
      .raised .unexpectedEndOfInput
        (match i with
          | .first _ => .first
          | .lit _ => if n = 0 then .opPrefix else .lit
          | .blkReuse _ => if n = 0 then .opPrefix else .block
          | .blk _ _ _ => if n = 0 then .opPrefix else .block
          | .shb _ => if n = 0 then .opPrefix else .short
          | .endStream _ => if n = 0 then .opPrefix else .short
          | .sbZero => if n = 0 then .opPrefix else .single
          | .sbCopy _ => if n = 0 then .opPrefix else .single) c

/-- Bytes at or after the cursor an operation leaves have no influence on it: any input that agrees on the bytes before
that cursor decodes alike (R45, R70, R109). -/
def Obligations.UnreadInputHasNoInfluence : Prop :=
  ∀ (cfg : Config) (isFirst pair : Bool) (input input' : List Byte) (c c' : Cursor) (i : Instr),
    c.inPos ≤ input.length → decode cfg isFirst pair input c = .instr i c' →
    input'.take c'.inPos = input.take c'.inPos → decode cfg isFirst pair input' c = .instr i c'

/-- `G1` = 2 selects BLK_REUSE, which reads no `LO`, when `pair` = 1, and BLK when `pair` = 0; any other `G1` selects BLK
(R53, R78, R79, R80). -/
def Obligations.PairChoosesTheFormOfBlock : Prop :=
  ∀ (cfg : Config) (input : List Byte) (c c1 : Cursor) (g1 : Nat), readGamma cfg input c = .done g1 c1 →
    (∀ g2 c2, g1 = 2 → readGamma cfg input c1 = .done g2 c2 →
      decodeBlock cfg true input c = .instr (.blkReuse g2) c2) ∧
    (∀ pair lo c2 g2 c3, ¬ (g1 = 2 ∧ pair = true) → readByte input c1 = .done lo c2 →
      readGamma cfg input c2 = .done g2 c3 → decodeBlock cfg pair input c = .instr (.blk g1 lo g2) c3)

/-! ## The step -/

/-- A step of a session whose next operation decodes to `i` is `exec i` in the state the operation's reads leave: only
`in_pos`, `bit_count` and `tag` differ from before (R20, R62). -/
def Obligations.StepRunsTheDecodedOperation : Prop :=
  ∀ (s : State) (i : Instr) (c : Cursor), configured s = true → s.fsm = .start ∨ s.fsm = .running →
    decode s.cfg (decide (s.fsm = .start)) s.pair s.input ⟨s.inPos, s.bitCount, s.tag⟩ = .instr i c →
    step s = exec i { s with inPos := c.inPos, bitCount := c.bitCount, tag := c.tag }

/-- A fault raised by a read ends the step in FAILED with the record of R92; what the reads wrote before the raise stays,
nothing else changes (R87, R91, R93). The label recorded is that of the operation the read belongs to, and only BLOCK, the
one opcode with gamma numbers, raises `NumberOverflow` (R19, R62; vectors FX3 to FX6, FX14). -/
def Obligations.ReadFaultEndsTheStepInFailed : Prop :=
  (∀ (s : State) (f : FaultCode) (cur : OpLabel) (c : Cursor),
    configured s = true → s.fsm = .start ∨ s.fsm = .running →
    decode s.cfg (decide (s.fsm = .start)) s.pair s.input ⟨s.inPos, s.bitCount, s.tag⟩ = .raised f cur c →
    step s = .next { s with inPos := c.inPos, bitCount := c.bitCount, tag := c.tag,
                            errCode := some f, errOp := cur, errInfo := 0, fsm := .failed }) ∧
  ∀ (cfg : Config) (pair : Bool) (input : List Byte) (c c' : Cursor) (f : FaultCode) (cur : OpLabel),
    (decodeFirst input c = .raised f cur c' → cur = .first ∧ f = .unexpectedEndOfInput) ∧
    (decodeLiteral input c = .raised f cur c' → cur = .lit ∧ f = .unexpectedEndOfInput) ∧
    (decodeBlock cfg pair input c = .raised f cur c' →
      cur = .block ∧ (f = .unexpectedEndOfInput ∨ f = .numberOverflow)) ∧
    (decodeShort input c = .raised f cur c' → cur = .short ∧ f = .unexpectedEndOfInput) ∧
    (decodeSingle input c = .raised f cur c' → cur = .single ∧ f = .unexpectedEndOfInput)

/-- IDLE, TERMINATED and FAILED have no step (R62, R71, R95); the names of the stops are the model's. -/
def Obligations.NoStepOutsideASession : Prop :=
  ∀ s : State, configured s = true →
    (s.fsm = .idle → step s = .fault .noStepIdle) ∧
    (s.fsm = .terminated → step s = .fault .noStepTerminated) ∧
    (s.fsm = .failed → step s = .fault .noStepFailed)

/-- A configuration that breaks a constraint of R5 is refused, by the step and by every operation; an unbounded OUT_CAP
beside a bounded NUM_BITS is one (assumption 2). -/
def Obligations.BrokenParametersAreRefused : Prop :=
  ∀ s : State,
    (s.cfg.tagSize ≠ 1 ∨ s.cfg.outCap = some 0 ∨
      (∃ cap n, s.cfg.outCap = some cap ∧ s.cfg.numBits = some n ∧ 2 ^ n - 1 < cap + 3) ∨
      (∃ n, s.cfg.outCap = none ∧ s.cfg.numBits = some n) ∨
      ∃ w, s.cfg.inPosBits = some w ∧ 2 ^ w ≤ s.input.length) →
    step s = .refused .configurationBroken ∧ ∀ i, exec i s = .refused .configurationBroken

/-- An operation is refused where its operands are out of range, the selecting condition of R49 fails, or no session is
in progress; no step gets there (assumption 7). -/
def Obligations.UnselectedFormIsRefused : Prop :=
  ∀ (i : Instr) (s : State), configured s = true →
    (i.wf s.cfg = false ∨ (s.fsm ≠ .start ∧ s.fsm ≠ .running) ∨
      i.selected (decide (s.fsm = .start)) s.pair = false) →
    exec i s = .refused .formNotSelected

/-- From every state that meets the invariant, a step of a session answers a next state: no stream, however malformed,
stops the model (R53, R64, R86, R90). -/
def Obligations.EverySessionStepCompletes : Prop :=
  ∀ s : State, Inv s → s.fsm = .start ∨ s.fsm = .running → ∃ t, step s = .next t

/-! ## Results of the operations -/

/-- R76: the first step of a session appends `in[0]`, sets `pair` and moves to RUNNING, reading no bit; with no input it
fails with the record (1, 1, 0) and nothing else changed. It is the only step that runs FIRST. -/
def Obligations.FirstStepEmitsTheInitialLiteral : Prop :=
  (∀ s : State, configured s = true → s.fsm = .start → Fresh s →
    (∀ l rest, s.input = l :: rest →
      step s = .next { s with inPos := 1, out := s.out.write 0 l, outLen := 1, pair := true, fsm := .running }) ∧
    (s.input = [] →
      step s = .next { s with errCode := some .unexpectedEndOfInput, errOp := .first, errInfo := 0, fsm := .failed })) ∧
  ∀ s : State, s.fsm ≠ .start → ∀ l c, fetch s ≠ .instr (.first l) c

/-- FIRST appends its byte, sets `pair` and enters RUNNING (R62, R68, R76). -/
def Obligations.FirstAppendsItsByte : Prop :=
  ∀ (l : Byte) (s : State), configured s = true → s.fsm = .start →
    (∀ cap, s.cfg.outCap = some cap → s.outLen < cap) →
    exec (.first l) s =
      .next { s with out := s.out.write s.outLen l, outLen := s.outLen + 1, pair := true, fsm := .running }

/-- LIT appends its byte and sets `pair`; nothing else changes (R68, R77). -/
def Obligations.LitAppendsItsByte : Prop :=
  ∀ (l : Byte) (s : State), configured s = true → s.fsm = .running →
    (∀ cap, s.cfg.outCap = some cap → s.outLen < cap) →
    exec (.lit l) s = .next { s with out := s.out.write s.outLen l, outLen := s.outLen + 1, pair := true }

/-- SB_ZERO appends 0x00 and sets `pair`; nothing else changes (R68, R83). -/
def Obligations.SbZeroAppendsZero : Prop :=
  ∀ s : State, configured s = true → s.fsm = .running →
    (∀ cap, s.cfg.outCap = some cap → s.outLen < cap) →
    exec .sbZero s = .next { s with out := s.out.write s.outLen 0x00, outLen := s.outLen + 1, pair := true }

/-- R74: a copy that passes both checks writes `out_buf[L0 + i] = out_buf[L0 - offset + (i mod offset)]` for every
`i < length` and moves `out_len` to `L0 + length`; bytes below `L0`, bytes past the copy and all other state stay. -/
def Obligations.BackCopyMeetsItsClosedForm : Prop :=
  ∀ (cur : OpLabel) (offset length : Nat) (s : State), Written s → 1 ≤ offset → offset ≤ s.outLen →
    (∀ cap, s.cfg.outCap = some cap → s.outLen + length ≤ cap) →
    ∃ t, backCopy cur offset length s = .go t ∧
      t.outLen = s.outLen + length ∧
      (∀ i < length, t.out.read (s.outLen + i) = t.out.read (s.outLen - offset + i % offset)) ∧
      (∀ a, a < s.outLen ∨ s.outLen + length ≤ a → t.out.read a = s.out.read a) ∧
      t = { s with out := t.out, outLen := t.outLen }

/-- R72 and the order of R94: an offset outside `1 <= offset <= out_len` raises `InvalidBackReference(offset)` whatever
the length, and only then does a length that does not fit raise `OutputCapacityExceeded(length)`; in either case the
fault record and FAILED are all that changes. -/
def Obligations.BackCopyChecksOffsetThenCapacity : Prop :=
  ∀ (cur : OpLabel) (offset length : Nat) (s : State),
    (offset = 0 ∨ s.outLen < offset →
      backCopy cur offset length s =
        .ended { s with errCode := some .invalidBackReference, errOp := cur, errInfo := offset, fsm := .failed }) ∧
    (∀ cap, 1 ≤ offset → offset ≤ s.outLen → s.cfg.outCap = some cap → cap < s.outLen + length →
      backCopy cur offset length s =
        .ended { s with errCode := some .outputCapacityExceeded, errOp := cur, errInfo := length, fsm := .failed })

/-- BLK_REUSE copies `G2` bytes at the last offset, with no length correction, and clears `pair`; `last_offset` keeps its
value and nothing else changes (R74, R78). -/
def Obligations.BlkReuseCopiesAtTheLastOffset : Prop :=
  ∀ (g2 : Nat) (s : State), configured s = true → Written s → s.fsm = .running → s.pair = true →
    2 ≤ g2 → s.cfg.fitsNum g2 = true → 1 ≤ s.lastOffset → s.lastOffset ≤ s.outLen →
    (∀ cap, s.cfg.outCap = some cap → s.outLen + g2 ≤ cap) →
    ∃ t, exec (.blkReuse g2) s = .next t ∧ Copied s t s.lastOffset g2 ∧
      t = { s with out := t.out, outLen := t.outLen, pair := false }

/-- BLK computes its offset and its length by R51, copies, sets `last_offset` and clears `pair`; nothing else changes. The
odd form `G1` = 2 with `pair` = 0 is one of its cases (R74, R79, R80). -/
def Obligations.BlkCopiesAtItsOffset : Prop :=
  ∀ (g1 : Nat) (lo : Byte) (g2 offset length : Nat) (s : State),
    configured s = true → Written s → s.fsm = .running → ¬ (g1 = 2 ∧ s.pair = true) →
    2 ≤ g1 → s.cfg.fitsNum g1 = true → 2 ≤ g2 → s.cfg.fitsNum g2 = true →
    offset = (g1 - 2 - if s.pair then 1 else 0) * 256 + lo.toNat →
    length = g2 + (if offset < 0x80 then 2 else if offset < 0x500 then 0 else if offset < 0x7D00 then 1 else 2) →
    1 ≤ offset → offset ≤ s.outLen → (∀ cap, s.cfg.outCap = some cap → s.outLen + length ≤ cap) →
    ∃ t, exec (.blk g1 lo g2) s = .next t ∧ Copied s t offset length ∧
      t = { s with out := t.out, outLen := t.outLen, lastOffset := offset, pair := false }

/-- SHB copies 2 or 3 bytes at offset `S >> 1`, sets `last_offset` and clears `pair`; nothing else changes (R52, R74,
R81). -/
def Obligations.ShbCopiesAtItsOffset : Prop :=
  ∀ (sv : Byte) (s : State), configured s = true → Written s → s.fsm = .running → 2 ≤ sv.toNat →
    sv.toNat / 2 ≤ s.outLen → (∀ cap, s.cfg.outCap = some cap → s.outLen + (2 + sv.toNat % 2) ≤ cap) →
    ∃ t, exec (.shb sv) s = .next t ∧ Copied s t (sv.toNat / 2) (2 + sv.toNat % 2) ∧
      t = { s with out := t.out, outLen := t.outLen, lastOffset := sv.toNat / 2, pair := false }

/-- SB_COPY copies the byte at distance `D` and sets `pair`; `last_offset` and everything else stay (R52, R73, R84). -/
def Obligations.SbCopyCopiesOneByte : Prop :=
  ∀ (d : BitVec 4) (s : State), configured s = true → Written s → s.fsm = .running → d ≠ 0 → d.toNat ≤ s.outLen →
    (∀ cap, s.cfg.outCap = some cap → s.outLen < cap) →
    ∃ v, s.out.read (s.outLen - d.toNat) = some v ∧
      exec (.sbCopy d) s = .next { s with out := s.out.write s.outLen v, outLen := s.outLen + 1, pair := true }

/-- END, for `S` = 0 and `S` = 1 alike, moves to TERMINATED and writes nothing else (R70, R82). -/
def Obligations.EndTerminatesTheSession : Prop :=
  ∀ (sv : Byte) (s : State), configured s = true → s.fsm = .running → sv.toNat ≤ 1 →
    exec (.endStream sv) s = .next { s with fsm := .terminated }

/-- A back-reference whose offset is 0 or above `out_len` ends the session with the record (2, label, offset). BLK has
written `last_offset` by then, SHB has not; `pair`, OUT and the stream's place stay (R78, R79, R81, R84, R88). -/
def Obligations.BadOffsetEndsTheSessionInFailed : Prop :=
  (∀ (g2 : Nat) (s : State), configured s = true → selects (.blkReuse g2) s = true →
    s.lastOffset = 0 ∨ s.outLen < s.lastOffset →
    exec (.blkReuse g2) s =
      .next { s with errCode := some .invalidBackReference, errOp := .block, errInfo := s.lastOffset, fsm := .failed }) ∧
  (∀ (g1 : Nat) (lo : Byte) (g2 : Nat) (s : State), configured s = true → selects (.blk g1 lo g2) s = true →
    blockOffset g1 s.pair lo = 0 ∨ s.outLen < blockOffset g1 s.pair lo →
    exec (.blk g1 lo g2) s =
      .next { s with lastOffset := blockOffset g1 s.pair lo, errCode := some .invalidBackReference, errOp := .block,
                     errInfo := blockOffset g1 s.pair lo, fsm := .failed }) ∧
  (∀ (sv : Byte) (s : State), configured s = true → selects (.shb sv) s = true → s.outLen < sv.toNat / 2 →
    exec (.shb sv) s =
      .next { s with errCode := some .invalidBackReference, errOp := .short, errInfo := sv.toNat / 2, fsm := .failed }) ∧
  ∀ (d : BitVec 4) (s : State), configured s = true → selects (.sbCopy d) s = true → s.outLen < d.toNat →
    exec (.sbCopy d) s =
      .next { s with errCode := some .invalidBackReference, errOp := .single, errInfo := d.toNat, fsm := .failed }

/-- An operation whose output does not fit below OUT_CAP ends the session with the record (3, label, length asked), where
the length is 1 for an appended byte; OUT, `out_len` and `pair` stay, and BLK has written `last_offset` (R69, R75, R89).
FIRST meets it in no reachable state (R76). -/
def Obligations.FullOutputEndsTheSessionInFailed : Prop :=
  (∀ (l : Byte) (s : State) (cap : Nat), configured s = true → s.cfg.outCap = some cap → cap ≤ s.outLen →
    (s.fsm = .start → exec (.first l) s =
      .next { s with errCode := some .outputCapacityExceeded, errOp := .first, errInfo := 1, fsm := .failed }) ∧
    (s.fsm = .running → exec (.lit l) s =
      .next { s with errCode := some .outputCapacityExceeded, errOp := .lit, errInfo := 1, fsm := .failed }) ∧
    (s.fsm = .running → exec .sbZero s =
      .next { s with errCode := some .outputCapacityExceeded, errOp := .single, errInfo := 1, fsm := .failed })) ∧
  (∀ (g2 : Nat) (s : State) (cap : Nat), configured s = true → selects (.blkReuse g2) s = true →
    1 ≤ s.lastOffset → s.lastOffset ≤ s.outLen → s.cfg.outCap = some cap → cap < s.outLen + g2 →
    exec (.blkReuse g2) s =
      .next { s with errCode := some .outputCapacityExceeded, errOp := .block, errInfo := g2, fsm := .failed }) ∧
  (∀ (g1 : Nat) (lo : Byte) (g2 offset : Nat) (s : State) (cap : Nat),
    configured s = true → selects (.blk g1 lo g2) s = true → offset = blockOffset g1 s.pair lo →
    1 ≤ offset → offset ≤ s.outLen → s.cfg.outCap = some cap → cap < s.outLen + blockLength offset g2 →
    exec (.blk g1 lo g2) s =
      .next { s with lastOffset := offset, errCode := some .outputCapacityExceeded, errOp := .block,
                     errInfo := blockLength offset g2, fsm := .failed }) ∧
  (∀ (sv : Byte) (s : State) (cap : Nat), configured s = true → selects (.shb sv) s = true →
    sv.toNat / 2 ≤ s.outLen → s.cfg.outCap = some cap → cap < s.outLen + (2 + sv.toNat % 2) →
    exec (.shb sv) s =
      .next { s with errCode := some .outputCapacityExceeded, errOp := .short, errInfo := 2 + sv.toNat % 2,
                     fsm := .failed }) ∧
  ∀ (d : BitVec 4) (s : State) (cap : Nat), configured s = true → selects (.sbCopy d) s = true →
    d.toNat ≤ s.outLen → s.cfg.outCap = some cap → cap ≤ s.outLen →
    exec (.sbCopy d) s =
      .next { s with errCode := some .outputCapacityExceeded, errOp := .single, errInfo := 1, fsm := .failed }

/-- The operands of the copies as R51 and R52 assemble them: `offset[7:0] = LO`, `offset >> 8 = G1 - 2 - pair`, the four
bands of the length correction, and SHB's ranges. -/
def Obligations.CopyOperandsAreAssembledByTheTables : Prop :=
  (∀ (g1 : Nat) (pair : Bool) (lo : Byte), 2 + pair.toNat ≤ g1 →
    blockOffset g1 pair lo % 256 = lo.toNat ∧ blockOffset g1 pair lo / 256 + 2 + pair.toNat = g1) ∧
  (∀ offset g2 : Nat,
    (offset < 0x80 → blockLength offset g2 = g2 + 2) ∧
    (0x80 ≤ offset ∧ offset < 0x500 → blockLength offset g2 = g2) ∧
    (0x500 ≤ offset ∧ offset < 0x7D00 → blockLength offset g2 = g2 + 1) ∧
    (0x7D00 ≤ offset → blockLength offset g2 = g2 + 2)) ∧
  ∀ sv : Byte, 2 ≤ sv.toNat →
    shortOffset sv = (sv.extractLsb' 1 7).toNat ∧ 1 ≤ shortOffset sv ∧ shortOffset sv ≤ 127 ∧
    shortLength sv = 2 + (sv.extractLsb' 0 1).toNat

/-- Every offset fits in OFF_BITS bits and every length in LEN_BITS bits, so that no operation wraps (R5, R51, R85). -/
def Obligations.OffsetsAndLengthsFitTheirWidths : Prop :=
  ∀ (cfg : Config) (offBits lenBits : Nat) (pair : Bool),
    cfg.valid = true → cfg.offBits = some offBits → cfg.lenBits = some lenBits →
    (∀ g1 lo g2, (Instr.blk g1 lo g2).wf cfg = true →
      blockOffset g1 pair lo < 2 ^ offBits ∧ blockLength (blockOffset g1 pair lo) g2 < 2 ^ lenBits) ∧
    (∀ g2, (Instr.blkReuse g2).wf cfg = true → g2 < 2 ^ lenBits) ∧
    (∀ sv : Byte, shortOffset sv < 2 ^ offBits ∧ shortLength sv < 2 ^ lenBits) ∧
    ∀ d : BitVec 4, singleOffset d < 2 ^ offBits ∧ 1 < 2 ^ lenBits

/-! ## Frames -/

/-- No operation moves the stream's place, its bytes, the parameters or the count of draws: its reads are done (R62). -/
def Obligations.OperationsLeaveTheStreamAlone : Prop :=
  ∀ (i : Instr) (s t : State), exec i s = .next t →
    t.cfg = s.cfg ∧ t.input = s.input ∧ t.inPos = s.inPos ∧ t.bitCount = s.bitCount ∧ t.tag = s.tag ∧
    t.draws = s.draws

/-- The frame of FIRST, LIT and SB_ZERO: `last_offset` stays; every byte of OUT but the one at `out_len` stays; a
completed one leaves the fault record, and a failed one leaves OUT, `out_len` and `pair` (R14, R68, R76, R77, R83). -/
def Obligations.AppendingOperationsFrame : Prop :=
  ∀ (i : Instr) (s t : State), ((∃ l, i = .first l) ∨ (∃ l, i = .lit l) ∨ i = .sbZero) → exec i s = .next t →
    t.lastOffset = s.lastOffset ∧
    (∀ a, a ≠ s.outLen → t.out.read a = s.out.read a) ∧
    (t.fsm ≠ .failed → t.outLen = s.outLen + 1 ∧ t.errCode = s.errCode ∧ t.errOp = s.errOp ∧ t.errInfo = s.errInfo) ∧
    (t.fsm = .failed → t.out = s.out ∧ t.outLen = s.outLen ∧ t.pair = s.pair)

/-- The frame of the four copies, each with the stored bytes given by the length its meaning computes: every other byte of
OUT stays; a completed copy leaves the fault record and stays in RUNNING, a failed one leaves OUT, `out_len` and `pair`;
`last_offset` is written by BLK always, by SHB on completion, and by the others never (R14, R15, R73, R78 to R84). -/
def Obligations.CopyingOperationsFrame : Prop :=
  ∀ (i : Instr) (s t : State) (length : Nat),
    (i = .blkReuse length ∨
      (∃ g1 lo g2, i = .blk g1 lo g2 ∧ length = blockLength (blockOffset g1 s.pair lo) g2) ∨
      (∃ sv, i = .shb sv ∧ length = shortLength sv) ∨ (∃ d, i = .sbCopy d ∧ length = 1)) →
    exec i s = .next t →
    (∀ a, a < s.outLen ∨ s.outLen + length ≤ a → t.out.read a = s.out.read a) ∧
    (t.fsm ≠ .failed → t.fsm = .running ∧ t.outLen = s.outLen + length ∧
      t.errCode = s.errCode ∧ t.errOp = s.errOp ∧ t.errInfo = s.errInfo) ∧
    (t.fsm = .failed → t.out = s.out ∧ t.outLen = s.outLen ∧ t.pair = s.pair) ∧
    (∀ g1 lo g2, i = .blk g1 lo g2 → t.lastOffset = blockOffset g1 s.pair lo) ∧
    (∀ sv, i = .shb sv → t.lastOffset = if t.fsm = .failed then s.lastOffset else shortOffset sv) ∧
    ((∃ g2, i = .blkReuse g2) ∨ (∃ d, i = .sbCopy d) → t.lastOffset = s.lastOffset)

/-! ## Rules of the whole machine -/

/-- OUT is append-only: no step changes a byte below `out_len`, lowers `out_len`, or writes a byte at or above the new
`out_len` (R16, R35). -/
def Obligations.OutIsAppendOnly : Prop :=
  ∀ s t : State, step s = .next t →
    s.outLen ≤ t.outLen ∧ ∀ a, a < s.outLen ∨ t.outLen ≤ a → t.out.read a = s.out.read a

/-- R75: a step that fails leaves OUT and `out_len` as they were, and `pair` with them: no partial copy exists. -/
def Obligations.FailedStepLeavesTheOutputAlone : Prop :=
  ∀ s t : State, step s = .next t → t.fsm = .failed → t.out = s.out ∧ t.outLen = s.outLen ∧ t.pair = s.pair

/-- The table of R14: what each completed operation leaves in `pair`. -/
def Obligations.PairFollowsItsTable : Prop :=
  ∀ (s t : State) (i : Instr) (c : Cursor), fetch s = .instr i c → step s = .next t → t.fsm ≠ .failed →
    match i with
    | .first _ | .lit _ | .sbZero | .sbCopy _ => t.pair = true
    | .blkReuse _ | .blk _ _ _ | .shb _ => t.pair = false
    | .endStream _ => t.pair = s.pair

/-- R15: a step changes `last_offset` only through BLK_REUSE, BLK or SHB, and after a completed one of these
`1 <= last_offset <= out_len`. -/
def Obligations.LastOffsetIsWrittenByBlocksOnly : Prop :=
  ∀ s t : State, step s = .next t →
    (t.lastOffset ≠ s.lastOffset →
      ∃ i c, fetch s = .instr i c ∧ ((∃ g1 lo g2, i = .blk g1 lo g2) ∨ ∃ sv, i = .shb sv)) ∧
    (∀ i c, fetch s = .instr i c →
      ((∃ g2, i = .blkReuse g2) ∨ (∃ g1 lo g2, i = .blk g1 lo g2) ∨ ∃ sv, i = .shb sv) →
      t.fsm ≠ .failed → 1 ≤ t.lastOffset ∧ t.lastOffset ≤ t.outLen)

/-- R67: the moves between the session states; a step ends in FAILED exactly when it records a fault, and in TERMINATED
exactly when it runs END. -/
def Obligations.SessionStatesMoveByTheTable : Prop :=
  ∀ (m : Move) (s t : State), move m s = .next t →
    match m with
    | .step =>
      ((s.fsm = .start ∧ (t.fsm = .running ∨ t.fsm = .failed)) ∨
        (s.fsm = .running ∧ (t.fsm = .running ∨ t.fsm = .terminated ∨ t.fsm = .failed))) ∧
      (t.fsm = .terminated ↔ ∃ sv c, fetch s = .instr (.endStream sv) c) ∧
      (t.fsm = .failed → ∃ f, t.errCode = some f) ∧ (t.fsm ≠ .failed → t.errCode = s.errCode)
    | .reset => t.fsm = .idle
    | .write index value _ =>
      if index = 0 ∧ value % 2 = 1 then
        (s.fsm = .idle ∨ s.fsm = .terminated ∨ s.fsm = .failed) ∧ t.fsm = .start
      else t = s
    | .readRegister _ => t.fsm = s.fsm
    | .readOut _ => t.fsm = s.fsm

/-- Every step in RUNNING consumes at least one bit of the input or ends the session, and every opcode but END that
completes appends at least one byte (R65). -/
def Obligations.RunningStepConsumesInputOrEnds : Prop :=
  ∀ s t : State, step s = .next t → s.fsm = .running →
    (t.fsm = .failed ∨ t.fsm = .terminated ∨ bitsLeft t.input ⟨t.inPos, t.bitCount, t.tag⟩ <
      bitsLeft s.input ⟨s.inPos, s.bitCount, s.tag⟩) ∧
    (t.fsm = .running → s.outLen < t.outLen)

/-- R65: a session of N input bytes ends, in TERMINATED or FAILED, after one step in START and at most `8N + 1` steps in
RUNNING. -/
def Obligations.SessionEndsWithinItsBound : Prop :=
  ∀ s : State, Inv s → s.fsm = .start →
    ∃ k t, k ≤ 1 + (8 * s.input.length + 1) ∧ Host.Core.run Sys2Proof.core k s = .next t ∧
      (t.fsm = .terminated ∨ t.fsm = .failed)

/-- A step reads nothing but the input, OUT_CAP, NUM_BITS, the registers and OUT below `out_len`: two states that agree on
these step alike, whatever their draws, trace port, other parameters and stale bytes of OUT (R28, R35, R96, R105). -/
def Obligations.StepReadsOnlyTheSession : Prop :=
  ∀ s t : State, SameSession s t → configured s = true → configured t = true →
    OutcomesAgree SameSession (step s) (step t)

/-- R105: two sessions on the same input, with the same OUT_CAP and NUM_BITS, agree after every number of steps, whatever
went before them in their cores. -/
def Obligations.SessionsOnOneInputAgree : Prop :=
  ∀ (s s' t t' : State) (input : List Byte), s.cfg.outCap = s'.cfg.outCap → s.cfg.numBits = s'.cfg.numBits →
    startMove input s = .next t → startMove input s' = .next t' →
    ∀ k, OutcomesAgree SameSession (Host.Core.run Sys2Proof.core k t) (Host.Core.run Sys2Proof.core k t')

/-- A session on the stream assembled from a list of operations that ends with its only END ends in TERMINATED after one
step an operation, with the output the reference decoder gives, every byte of the stream consumed and none after it, for
every legal OUT_CAP that holds the output and every legal NUM_BITS: NumberOverflow and OutputCapacityExceeded do not occur
(R5, R6, R54, R71, R91). -/
def Obligations.SessionDecodesAssembledStream : Prop :=
  ∀ (s s0 : State) (body : List Instr) (sv : Byte) (tail : List Byte) (r : RefState),
    streamOk .reference true false (body ++ [.endStream sv]) = true → (∀ i ∈ body, ∀ x, i ≠ .endStream x) →
    refRun .fresh (body ++ [.endStream sv]) = some r →
    (∀ cap, s.cfg.outCap = some cap → r.out.length ≤ cap) →
    startMove (assemble (body ++ [.endStream sv]) ++ tail) s = .next s0 →
    ∃ t, Host.Core.run Sys2Proof.core (body.length + 1) s0 = .next t ∧ t.fsm = .terminated ∧ Holds t r.out ∧
      t.inPos = (assemble (body ++ [.endStream sv])).length ∧ t.pair = r.pair ∧ t.lastOffset = r.lastOffset

/-! ## The invariant -/

/-- The invariant holds at reset, for every legal configuration and for `State.reset`. -/
def Obligations.InvariantHoldsAtReset : Prop :=
  (∀ cfg : Config, cfg.valid = true → Inv (State.resetOf cfg)) ∧ Inv State.reset

/-- Every step keeps the invariant (R27). -/
def Obligations.StepKeepsTheInvariant : Prop :=
  ∀ s t : State, Inv s → step s = .next t → Inv t

/-- Every move of the host keeps the invariant: reset, start, writes and reads (R27, R29, R101, R102). -/
def Obligations.HostMovesKeepTheInvariant : Prop :=
  ∀ (m : Move) (s t : State), m ≠ .step → Inv s → move m s = .next t → Inv t

/-- R27: every state reachable from reset, by steps and host moves in any order, meets the invariant. -/
def Obligations.ReachableStatesMeetTheInvariant : Prop :=
  ∀ (cfg : Config) (s : State), cfg.valid = true → Reachable cfg s → Inv s

/-! ## The host -/

/-- R101: reset, in any state, sets every register to its value of R29, and every status register then reads 0 (vector
RS1). R101 leaves the bytes of OUT unspecified; that none of them then holds a value is the model's choice (assumption 5). -/
def Obligations.ResetClearsEveryRegister : Prop :=
  ∀ s : State, ∃ t, resetMove s = t ∧ t.fsm = .idle ∧ Fresh t ∧ t.errCode = none ∧ t.errOp = .none ∧ t.errInfo = 0 ∧
    (∀ a, t.out.read a = none) ∧ t.cfg = s.cfg ∧ ∀ index < 7, readRegister index t = (0, t)

/-- R102: the start command binds the input, writes the session-start value of every register, and enters START; OUT
stays (R28), and the next step runs FIRST. In START and RUNNING R103 gives it no move; that the model answers the refusal
`startDuringSession` there is its own choice (assumption 4). This holds for every input the parameters admit. -/
def Obligations.StartBeginsAFreshSession : Prop :=
  ∀ (s : State) (input : List Byte) (value : Nat), s.cfg.valid = true → s.cfg.admitsInput input.length = true →
    value % 2 = 1 →
    (s.fsm = .idle ∨ s.fsm = .terminated ∨ s.fsm = .failed →
      writeRegister 0 value input s =
        .next { s with input := input, bitCount := 0, tag := 0x00, pair := false, lastOffset := 0, outLen := 0,
                       inPos := 0, errCode := none, errOp := .none, errInfo := 0, fsm := .start }) ∧
    (∀ t l rest, writeRegister 0 value input s = .next t → input = l :: rest →
      step t = exec (.first l) { t with inPos := 1 }) ∧
    (s.fsm = .start ∨ s.fsm = .running → writeRegister 0 value input s = .refused .startDuringSession)

/-- R23: bit 0 of CTRL issues the start command, whatever the bits above it; with bit 0 clear a write has no effect, and a
read returns 0. A write of any other index has no effect (R22). -/
def Obligations.ControlRegisterOnlyStarts : Prop :=
  ∀ (s : State) (value : Nat) (input : List Byte),
    (value % 2 = 1 → writeRegister 0 value input s = startMove input s) ∧
    (value % 2 = 0 → writeRegister 0 value input s = .next s) ∧
    readRegister 0 s = (0, s) ∧
    ∀ index, index ≠ 0 → writeRegister index value input s = .next s

/-- R24: the fields of STATUS, with the numbers of R18, R19 and R86, exact in every state; its reserved bits read 0 and
the read changes nothing. -/
def Obligations.StatusShowsStateAndFault : Prop :=
  ∀ s : State, ∃ w : BitVec 11, readRegister 1 s = (w.toNat, s) ∧
    w.extractLsb' 0 3 = (match s.fsm with | .idle => 0 | .start => 1 | .running => 2 | .terminated => 3 | .failed => 4) ∧
    w.getLsbD 3 = false ∧
    w.extractLsb' 4 3 = (match s.errCode with
      | none => 0 | some .unexpectedEndOfInput => 1 | some .invalidBackReference => 2
      | some .outputCapacityExceeded => 3 | some .numberOverflow => 4) ∧
    w.getLsbD 7 = false ∧
    w.extractLsb' 8 3 = (match s.errOp with
      | .none => 0 | .first => 1 | .opPrefix => 2 | .lit => 3 | .block => 4 | .short => 5 | .single => 6)

/-- R25: in IDLE, TERMINATED and FAILED the other status registers read their values exactly, CONTEXT with its three
fields and reserved 0s, and the read changes nothing; in START and RUNNING a read changes the count of draws only
(assumption 6). -/
def Obligations.StatusRegistersAreExactOutsideASession : Prop :=
  ∀ s : State,
    (s.fsm ≠ .start → s.fsm ≠ .running →
      readRegister 2 s = (s.outLen, s) ∧ readRegister 3 s = (s.inPos, s) ∧ readRegister 4 s = (s.errInfo, s) ∧
      readRegister 6 s = (s.lastOffset, s) ∧
      ∃ w : BitVec 16, readRegister 5 s = (w.toNat, s) ∧ w.getLsbD 0 = s.pair ∧ w.extractLsb' 1 3 = s.bitCount ∧
        w.extractLsb' 4 4 = 0 ∧ w.extractLsb' 8 8 = s.tag) ∧
    ∀ index, (readRegister index s).2 = s ∨ (readRegister index s).2 = { s with draws := s.draws + 1 }

/-- R36: in TERMINATED a host read below `out_len` returns exactly `out_buf[i]` and changes nothing; in every other case
it changes the count of draws only (assumption 6). -/
def Obligations.OutPortIsExactInTerminated : Prop :=
  ∀ (s : State) (i : Nat),
    (∀ v, s.fsm = .terminated → i < s.outLen → s.out.read i = some v → readOut i s = (v, s)) ∧
    (s.fsm ≠ .terminated ∨ s.outLen ≤ i → (readOut i s).2 = { s with draws := s.draws + 1 })

/-- The trace port emits nothing when absent, one record per completed operation with its mnemonic of R49, the operands it
decoded, `out_len` and `in_pos` after it, and one per fault (R96). Which operands each form shows is the model's choice
(assumption 10). -/
def Obligations.TraceRecordsEachStep : Prop :=
  ∀ s : State,
    (s.cfg.traceEn = false → emitted s = none) ∧
    (∀ t i c, s.cfg.traceEn = true → step s = .next t → fetch s = .instr i c → t.fsm ≠ .failed →
      emitted s = some (match i with
        | .first l => .operation "FIRST" { l := some l.toNat } t.outLen t.inPos
        | .lit l => .operation "LIT" { l := some l.toNat } t.outLen t.inPos
        | .blkReuse g2 =>
          .operation "BLK_REUSE" { g1 := some 2, g2 := some g2, offset := some s.lastOffset, length := some g2 }
            t.outLen t.inPos
        | .blk g1 lo g2 =>
          .operation "BLK" { g1 := some g1, lo := some lo.toNat, g2 := some g2, offset := some t.lastOffset,
                             length := some (t.outLen - s.outLen) } t.outLen t.inPos
        | .shb sv =>
          .operation "SHB" { sv := some sv.toNat, offset := some t.lastOffset, length := some (t.outLen - s.outLen) }
            t.outLen t.inPos
        | .endStream sv => .operation "END" { sv := some sv.toNat } t.outLen t.inPos
        | .sbZero => .operation "SB_ZERO" { d := some 0 } t.outLen t.inPos
        | .sbCopy d =>
          .operation "SB_COPY" { d := some d.toNat, offset := some d.toNat, length := some 1 } t.outLen t.inPos)) ∧
    ∀ t, s.cfg.traceEn = true → step s = .next t → t.fsm = .failed →
      emitted s = some (.fault t.errCode t.errOp t.errInfo)
end

