-- ==== Sys2Proof/Laws/Memory.lean ====
section
/-! SUPPORT. The laws of OUT's accesses: a read after a write, and the canonical form kept by every write. -/

namespace Sys2Proof.Machine

@[simp] theorem Memory.read_nil (a : Nat) : Memory.read [] a = none := rfl

theorem Memory.read_write (m : Memory) (a b : Nat) (v : Byte) :
    (Memory.write m a v).read b = if b = a then some v else Memory.read m b := by
  induction m with
  | nil => by_cases h : b = a <;> simp [Memory.write, Memory.read, h, Memory.unlisted]
  | cons x m ih =>
    obtain ⟨k, w⟩ := x
    simp only [Memory.write]
    split
    · simp [Memory.read]
    · split
      · subst_vars
        simp only [Memory.read]
        split <;> rfl
      · rename_i h
        simp only [Memory.read, ih]
        by_cases hb : b = k
        · simp [hb, Ne.symm h]
        · simp [hb]

/-- A read after a write to the same index gives the value written. -/
@[simp] theorem Memory.read_write_same (m : Memory) (a : Nat) (v : Byte) : (Memory.write m a v).read a = some v := by
  simp [Memory.read_write]

/-- A write leaves every other index alone. -/
theorem Memory.read_write_other (m : Memory) {a b : Nat} (v : Byte) (h : b ≠ a) :
    (Memory.write m a v).read b = Memory.read m b := by
  simp [Memory.read_write, h]

theorem Memory.risesFrom_mono {m : Memory} {j k : Nat} (h : Memory.risesFrom k m = true) (hjk : j ≤ k) :
    Memory.risesFrom j m = true := by
  cases m with
  | nil => rfl
  | cons x m =>
    simp only [Memory.risesFrom, Bool.and_eq_true, decide_eq_true_eq] at h ⊢
    exact ⟨hjk.trans h.1, h.2⟩

theorem Memory.risesFrom_write {m : Memory} {a k : Nat} (v : Byte) (h : Memory.risesFrom k m = true) (hk : k ≤ a) :
    Memory.risesFrom k (Memory.write m a v) = true := by
  induction m generalizing k with
  | nil => simpa [Memory.write, Memory.risesFrom] using hk
  | cons x m ih =>
    obtain ⟨b, w⟩ := x
    simp only [Memory.risesFrom, Bool.and_eq_true, decide_eq_true_eq] at h
    simp only [Memory.write]
    split
    · simp only [Memory.risesFrom, Bool.and_eq_true, decide_eq_true_eq]
      exact ⟨hk, by omega, h.2⟩
    · split
      · subst_vars
        simpa [Memory.risesFrom, hk] using h.2
      · simp only [Memory.risesFrom, Bool.and_eq_true, decide_eq_true_eq]
        exact ⟨h.1, ih h.2 (by omega)⟩

/-- Every write keeps the canonical form. -/
theorem Memory.wf_write {m : Memory} (a : Nat) (v : Byte) (h : m.wf = true) : (Memory.write m a v).wf = true :=
  Memory.risesFrom_write v h (Nat.zero_le a)

theorem Memory.wf_reset : Memory.wf [] = true := rfl

end Sys2Proof.Machine
end

