-- ==== Sys2Proof/Laws/State.lean ====
section
/-! SUPPORT. The fields of the state after each named update, one lemma per field and update, and what a step keeps of
the cursor. With them no proof unfolds a record update. -/

namespace Sys2Proof.Machine

variable (s : State)

/-! ## `withCursor` -/

@[simp] theorem State.withCursor_cfg (c : Cursor) : (s.withCursor c).cfg = s.cfg := rfl
@[simp] theorem State.withCursor_input (c : Cursor) : (s.withCursor c).input = s.input := rfl
@[simp] theorem State.withCursor_inPos (c : Cursor) : (s.withCursor c).inPos = c.inPos := rfl
@[simp] theorem State.withCursor_bitCount (c : Cursor) : (s.withCursor c).bitCount = c.bitCount := rfl
@[simp] theorem State.withCursor_tag (c : Cursor) : (s.withCursor c).tag = c.tag := rfl
@[simp] theorem State.withCursor_pair (c : Cursor) : (s.withCursor c).pair = s.pair := rfl
@[simp] theorem State.withCursor_lastOffset (c : Cursor) : (s.withCursor c).lastOffset = s.lastOffset := rfl
@[simp] theorem State.withCursor_outLen (c : Cursor) : (s.withCursor c).outLen = s.outLen := rfl
@[simp] theorem State.withCursor_out (c : Cursor) : (s.withCursor c).out = s.out := rfl
@[simp] theorem State.withCursor_fsm (c : Cursor) : (s.withCursor c).fsm = s.fsm := rfl
@[simp] theorem State.withCursor_errCode (c : Cursor) : (s.withCursor c).errCode = s.errCode := rfl
@[simp] theorem State.withCursor_errOp (c : Cursor) : (s.withCursor c).errOp = s.errOp := rfl
@[simp] theorem State.withCursor_errInfo (c : Cursor) : (s.withCursor c).errInfo = s.errInfo := rfl
@[simp] theorem State.withCursor_draws (c : Cursor) : (s.withCursor c).draws = s.draws := rfl

/-! ## `setPair` -/

@[simp] theorem State.setPair_cfg (b : Bool) : (s.setPair b).cfg = s.cfg := rfl
@[simp] theorem State.setPair_input (b : Bool) : (s.setPair b).input = s.input := rfl
@[simp] theorem State.setPair_inPos (b : Bool) : (s.setPair b).inPos = s.inPos := rfl
@[simp] theorem State.setPair_bitCount (b : Bool) : (s.setPair b).bitCount = s.bitCount := rfl
@[simp] theorem State.setPair_tag (b : Bool) : (s.setPair b).tag = s.tag := rfl
@[simp] theorem State.setPair_pair (b : Bool) : (s.setPair b).pair = b := rfl
@[simp] theorem State.setPair_lastOffset (b : Bool) : (s.setPair b).lastOffset = s.lastOffset := rfl
@[simp] theorem State.setPair_outLen (b : Bool) : (s.setPair b).outLen = s.outLen := rfl
@[simp] theorem State.setPair_out (b : Bool) : (s.setPair b).out = s.out := rfl
@[simp] theorem State.setPair_fsm (b : Bool) : (s.setPair b).fsm = s.fsm := rfl
@[simp] theorem State.setPair_errCode (b : Bool) : (s.setPair b).errCode = s.errCode := rfl
@[simp] theorem State.setPair_errOp (b : Bool) : (s.setPair b).errOp = s.errOp := rfl
@[simp] theorem State.setPair_errInfo (b : Bool) : (s.setPair b).errInfo = s.errInfo := rfl
@[simp] theorem State.setPair_draws (b : Bool) : (s.setPair b).draws = s.draws := rfl

/-! ## `setLastOffset` -/

@[simp] theorem State.setLastOffset_cfg (o : Nat) : (s.setLastOffset o).cfg = s.cfg := rfl
@[simp] theorem State.setLastOffset_input (o : Nat) : (s.setLastOffset o).input = s.input := rfl
@[simp] theorem State.setLastOffset_inPos (o : Nat) : (s.setLastOffset o).inPos = s.inPos := rfl
@[simp] theorem State.setLastOffset_bitCount (o : Nat) : (s.setLastOffset o).bitCount = s.bitCount := rfl
@[simp] theorem State.setLastOffset_tag (o : Nat) : (s.setLastOffset o).tag = s.tag := rfl
@[simp] theorem State.setLastOffset_pair (o : Nat) : (s.setLastOffset o).pair = s.pair := rfl
@[simp] theorem State.setLastOffset_lastOffset (o : Nat) : (s.setLastOffset o).lastOffset = o := rfl
@[simp] theorem State.setLastOffset_outLen (o : Nat) : (s.setLastOffset o).outLen = s.outLen := rfl
@[simp] theorem State.setLastOffset_out (o : Nat) : (s.setLastOffset o).out = s.out := rfl
@[simp] theorem State.setLastOffset_fsm (o : Nat) : (s.setLastOffset o).fsm = s.fsm := rfl
@[simp] theorem State.setLastOffset_errCode (o : Nat) : (s.setLastOffset o).errCode = s.errCode := rfl
@[simp] theorem State.setLastOffset_errOp (o : Nat) : (s.setLastOffset o).errOp = s.errOp := rfl
@[simp] theorem State.setLastOffset_errInfo (o : Nat) : (s.setLastOffset o).errInfo = s.errInfo := rfl
@[simp] theorem State.setLastOffset_draws (o : Nat) : (s.setLastOffset o).draws = s.draws := rfl

/-! ## `setFsm` -/

@[simp] theorem State.setFsm_cfg (f : Fsm) : (s.setFsm f).cfg = s.cfg := rfl
@[simp] theorem State.setFsm_input (f : Fsm) : (s.setFsm f).input = s.input := rfl
@[simp] theorem State.setFsm_inPos (f : Fsm) : (s.setFsm f).inPos = s.inPos := rfl
@[simp] theorem State.setFsm_bitCount (f : Fsm) : (s.setFsm f).bitCount = s.bitCount := rfl
@[simp] theorem State.setFsm_tag (f : Fsm) : (s.setFsm f).tag = s.tag := rfl
@[simp] theorem State.setFsm_pair (f : Fsm) : (s.setFsm f).pair = s.pair := rfl
@[simp] theorem State.setFsm_lastOffset (f : Fsm) : (s.setFsm f).lastOffset = s.lastOffset := rfl
@[simp] theorem State.setFsm_outLen (f : Fsm) : (s.setFsm f).outLen = s.outLen := rfl
@[simp] theorem State.setFsm_out (f : Fsm) : (s.setFsm f).out = s.out := rfl
@[simp] theorem State.setFsm_fsm (f : Fsm) : (s.setFsm f).fsm = f := rfl
@[simp] theorem State.setFsm_errCode (f : Fsm) : (s.setFsm f).errCode = s.errCode := rfl
@[simp] theorem State.setFsm_errOp (f : Fsm) : (s.setFsm f).errOp = s.errOp := rfl
@[simp] theorem State.setFsm_errInfo (f : Fsm) : (s.setFsm f).errInfo = s.errInfo := rfl
@[simp] theorem State.setFsm_draws (f : Fsm) : (s.setFsm f).draws = s.draws := rfl

/-! ## `putByte` -/

@[simp] theorem State.putByte_cfg (v : Byte) : (s.putByte v).cfg = s.cfg := rfl
@[simp] theorem State.putByte_input (v : Byte) : (s.putByte v).input = s.input := rfl
@[simp] theorem State.putByte_inPos (v : Byte) : (s.putByte v).inPos = s.inPos := rfl
@[simp] theorem State.putByte_bitCount (v : Byte) : (s.putByte v).bitCount = s.bitCount := rfl
@[simp] theorem State.putByte_tag (v : Byte) : (s.putByte v).tag = s.tag := rfl
@[simp] theorem State.putByte_pair (v : Byte) : (s.putByte v).pair = s.pair := rfl
@[simp] theorem State.putByte_lastOffset (v : Byte) : (s.putByte v).lastOffset = s.lastOffset := rfl
@[simp] theorem State.putByte_outLen (v : Byte) : (s.putByte v).outLen = s.outLen + 1 := rfl
@[simp] theorem State.putByte_out (v : Byte) : (s.putByte v).out = s.out.write s.outLen v := rfl
@[simp] theorem State.putByte_fsm (v : Byte) : (s.putByte v).fsm = s.fsm := rfl
@[simp] theorem State.putByte_errCode (v : Byte) : (s.putByte v).errCode = s.errCode := rfl
@[simp] theorem State.putByte_errOp (v : Byte) : (s.putByte v).errOp = s.errOp := rfl
@[simp] theorem State.putByte_errInfo (v : Byte) : (s.putByte v).errInfo = s.errInfo := rfl
@[simp] theorem State.putByte_draws (v : Byte) : (s.putByte v).draws = s.draws := rfl

/-! ## `raise` -/

@[simp] theorem State.raise_cfg (f : FaultCode) (cur : OpLabel) (info : Nat) : (s.raise f cur info).cfg = s.cfg := rfl
@[simp] theorem State.raise_input (f : FaultCode) (cur : OpLabel) (info : Nat) : (s.raise f cur info).input = s.input := rfl
@[simp] theorem State.raise_inPos (f : FaultCode) (cur : OpLabel) (info : Nat) : (s.raise f cur info).inPos = s.inPos := rfl
@[simp] theorem State.raise_bitCount (f : FaultCode) (cur : OpLabel) (info : Nat) : (s.raise f cur info).bitCount = s.bitCount := rfl
@[simp] theorem State.raise_tag (f : FaultCode) (cur : OpLabel) (info : Nat) : (s.raise f cur info).tag = s.tag := rfl
@[simp] theorem State.raise_pair (f : FaultCode) (cur : OpLabel) (info : Nat) : (s.raise f cur info).pair = s.pair := rfl
@[simp] theorem State.raise_lastOffset (f : FaultCode) (cur : OpLabel) (info : Nat) : (s.raise f cur info).lastOffset = s.lastOffset := rfl
@[simp] theorem State.raise_outLen (f : FaultCode) (cur : OpLabel) (info : Nat) : (s.raise f cur info).outLen = s.outLen := rfl
@[simp] theorem State.raise_out (f : FaultCode) (cur : OpLabel) (info : Nat) : (s.raise f cur info).out = s.out := rfl
@[simp] theorem State.raise_fsm (f : FaultCode) (cur : OpLabel) (info : Nat) : (s.raise f cur info).fsm = .failed := rfl
@[simp] theorem State.raise_errCode (f : FaultCode) (cur : OpLabel) (info : Nat) : (s.raise f cur info).errCode = some f := rfl
@[simp] theorem State.raise_errOp (f : FaultCode) (cur : OpLabel) (info : Nat) : (s.raise f cur info).errOp = cur := rfl
@[simp] theorem State.raise_errInfo (f : FaultCode) (cur : OpLabel) (info : Nat) : (s.raise f cur info).errInfo = info := rfl
@[simp] theorem State.raise_draws (f : FaultCode) (cur : OpLabel) (info : Nat) : (s.raise f cur info).draws = s.draws := rfl

/-! ## `sessionStart` -/

@[simp] theorem State.sessionStart_cfg (input : List Byte) : (s.sessionStart input).cfg = s.cfg := rfl
@[simp] theorem State.sessionStart_input (input : List Byte) : (s.sessionStart input).input = input := rfl
@[simp] theorem State.sessionStart_inPos (input : List Byte) : (s.sessionStart input).inPos = 0 := rfl
@[simp] theorem State.sessionStart_bitCount (input : List Byte) : (s.sessionStart input).bitCount = 0 := rfl
@[simp] theorem State.sessionStart_tag (input : List Byte) : (s.sessionStart input).tag = 0 := rfl
@[simp] theorem State.sessionStart_pair (input : List Byte) : (s.sessionStart input).pair = false := rfl
@[simp] theorem State.sessionStart_lastOffset (input : List Byte) : (s.sessionStart input).lastOffset = 0 := rfl
@[simp] theorem State.sessionStart_outLen (input : List Byte) : (s.sessionStart input).outLen = 0 := rfl
@[simp] theorem State.sessionStart_out (input : List Byte) : (s.sessionStart input).out = s.out := rfl
@[simp] theorem State.sessionStart_fsm (input : List Byte) : (s.sessionStart input).fsm = .start := rfl
@[simp] theorem State.sessionStart_errCode (input : List Byte) : (s.sessionStart input).errCode = none := rfl
@[simp] theorem State.sessionStart_errOp (input : List Byte) : (s.sessionStart input).errOp = .none := rfl
@[simp] theorem State.sessionStart_errInfo (input : List Byte) : (s.sessionStart input).errInfo = 0 := rfl
@[simp] theorem State.sessionStart_draws (input : List Byte) : (s.sessionStart input).draws = s.draws := rfl

/-! ## `drawn` -/

@[simp] theorem State.drawn_cfg : s.drawn.cfg = s.cfg := rfl
@[simp] theorem State.drawn_input : s.drawn.input = s.input := rfl
@[simp] theorem State.drawn_inPos : s.drawn.inPos = s.inPos := rfl
@[simp] theorem State.drawn_bitCount : s.drawn.bitCount = s.bitCount := rfl
@[simp] theorem State.drawn_tag : s.drawn.tag = s.tag := rfl
@[simp] theorem State.drawn_pair : s.drawn.pair = s.pair := rfl
@[simp] theorem State.drawn_lastOffset : s.drawn.lastOffset = s.lastOffset := rfl
@[simp] theorem State.drawn_outLen : s.drawn.outLen = s.outLen := rfl
@[simp] theorem State.drawn_out : s.drawn.out = s.out := rfl
@[simp] theorem State.drawn_fsm : s.drawn.fsm = s.fsm := rfl
@[simp] theorem State.drawn_errCode : s.drawn.errCode = s.errCode := rfl
@[simp] theorem State.drawn_errOp : s.drawn.errOp = s.errOp := rfl
@[simp] theorem State.drawn_errInfo : s.drawn.errInfo = s.errInfo := rfl
@[simp] theorem State.drawn_draws : s.drawn.draws = s.draws + 1 := rfl

/-! ## The cursor -/

@[simp] theorem State.cursor_inPos : s.cursor.inPos = s.inPos := rfl
@[simp] theorem State.cursor_bitCount : s.cursor.bitCount = s.bitCount := rfl
@[simp] theorem State.cursor_tag : s.cursor.tag = s.tag := rfl
@[simp] theorem State.withCursor_cursor (c : Cursor) : (s.withCursor c).cursor = c := rfl
@[simp] theorem State.withCursor_self : s.withCursor s.cursor = s := rfl
@[simp] theorem State.setLastOffset_self : s.setLastOffset s.lastOffset = s := rfl

/-! ## Reset -/

@[simp] theorem State.resetOf_cfg (cfg : Config) : (State.resetOf cfg).cfg = cfg := rfl
@[simp] theorem State.resetOf_fsm (cfg : Config) : (State.resetOf cfg).fsm = .idle := rfl
@[simp] theorem State.resetOf_out (cfg : Config) : (State.resetOf cfg).out = [] := rfl
@[simp] theorem State.resetOf_outLen (cfg : Config) : (State.resetOf cfg).outLen = 0 := rfl

end Sys2Proof.Machine
end

