-- ==== Sys2Proof/Laws/Ops.lean ====
section
/-! SUPPORT. Everything the shared operations can do: the flow of an operation, `Append`, `BackCopy`, the guard of an
operation. The proofs about meanings cite these and do not unfold the operations. -/

namespace Sys2Proof.Machine

/-! ## Flow -/

@[simp] theorem Flow.andThen_go (s : State) (k : State → Flow) : (Flow.go s).andThen k = k s := rfl
@[simp] theorem Flow.andThen_ended (s : State) (k : State → Flow) : (Flow.ended s).andThen k = .ended s := rfl
@[simp] theorem Flow.andThen_stopped (f : Fault) (k : State → Flow) : (Flow.stopped f).andThen k = .stopped f := rfl
@[simp] theorem Flow.outcome_go (s : State) : (Flow.go s).outcome = .next s := rfl
@[simp] theorem Flow.outcome_ended (s : State) : (Flow.ended s).outcome = .next s := rfl
@[simp] theorem Flow.outcome_stopped (f : Fault) : (Flow.stopped f).outcome = .fault f := rfl

theorem Flow.outcome_eq_next {x : Flow} {t : State} (h : x.outcome = .next t) : x = .go t ∨ x = .ended t := by
  cases x with
  | go s => exact .inl (by simpa using h)
  | ended s => exact .inr (by simpa using h)
  | stopped f => cases h

/-! ## The guard -/

theorem operation_selected {i : Instr} {s : State} (body : State → Flow) (hc : configured s = true)
    (hs : selects i s = true) : operation i s body = (body s).outcome := by
  simp [operation, hc, hs]

theorem operation_not_configured {i : Instr} {s : State} (body : State → Flow) (hc : configured s = false) :
    operation i s body = .refused .configurationBroken := by
  simp [operation, hc]

theorem operation_not_selected {i : Instr} {s : State} (body : State → Flow) (hc : configured s = true)
    (hs : selects i s = false) : operation i s body = .refused .formNotSelected := by
  simp [operation, hc, hs]

/-- An operation that answers a next state ran its pseudocode, to its end or to a raise. -/
theorem operation_next {i : Instr} {s t : State} {body : State → Flow} (h : operation i s body = .next t) :
    configured s = true ∧ selects i s = true ∧ (body s = .go t ∨ body s = .ended t) := by
  cases hc : configured s with
  | false => rw [operation_not_configured body hc] at h; cases h
  | true =>
    cases hs : selects i s with
    | false => rw [operation_not_selected body hc hs] at h; cases h
    | true =>
      rw [operation_selected body hc hs] at h
      exact ⟨rfl, rfl, Flow.outcome_eq_next h⟩

/-! ## `Append` -/

theorem append_room {cur : OpLabel} {v : Byte} {s : State} (h : s.cfg.hasRoom s.outLen 1 = true) :
    append cur v s = .go (s.putByte v) := by
  simp [append, h]

theorem append_full {cur : OpLabel} {v : Byte} {s : State} (h : s.cfg.hasRoom s.outLen 1 = false) :
    append cur v s = .ended (s.raise .outputCapacityExceeded cur 1) := by
  simp [append, h]

/-- Everything `Append` can do (R68, R69). -/
theorem append_cases (cur : OpLabel) (v : Byte) (s : State) :
    (s.cfg.hasRoom s.outLen 1 = true ∧ append cur v s = .go (s.putByte v)) ∨
    (s.cfg.hasRoom s.outLen 1 = false ∧ append cur v s = .ended (s.raise .outputCapacityExceeded cur 1)) := by
  cases h : s.cfg.hasRoom s.outLen 1 with
  | true => exact .inl ⟨rfl, append_room h⟩
  | false => exact .inr ⟨rfl, append_full h⟩

/-! ## `BackCopy` -/

/-- The loop writes OUT and `out_len` only: `n` bytes from `out_len` on, no byte elsewhere. -/
theorem copyLoop_go {offset n : Nat} {s t : State} (h : copyLoop offset n s = .go t) :
    t = { s with out := t.out, outLen := s.outLen + n } ∧
    (∀ a, a < s.outLen ∨ s.outLen + n ≤ a → t.out.read a = s.out.read a) ∧
    (s.out.wf = true → t.out.wf = true) := by
  induction n generalizing s with
  | zero =>
    simp only [copyLoop, Flow.go.injEq] at h
    subst h
    exact ⟨rfl, fun _ _ => rfl, id⟩
  | succ n ih =>
    simp only [copyLoop] at h
    split at h
    · cases h
    · rename_i v hv
      obtain ⟨he, hr, hw⟩ := ih h
      refine ⟨?_, ?_, fun w => hw (Memory.wf_write _ _ w)⟩
      · rw [he]; simp only [State.putByte]; congr 1; omega
      · intro a ha
        rw [hr a (by simp only [State.putByte_outLen]; omega), State.putByte_out,
          Memory.read_write_other _ _ (by omega)]

theorem copyLoop_not_ended {offset n : Nat} {s t : State} : copyLoop offset n s ≠ .ended t := by
  induction n generalizing s with
  | zero => simp [copyLoop]
  | succ n ih =>
    simp only [copyLoop]
    split
    · simp
    · exact ih

/-- Over written bytes the loop runs to its end: it never meets a byte without a value. -/
theorem copyLoop_completes {offset : Nat} (n : Nat) {s : State} (ho : 1 ≤ offset) (hle : offset ≤ s.outLen)
    (hw : ∀ a < s.outLen, (s.out.read a).isSome = true) : ∃ t, copyLoop offset n s = .go t := by
  induction n generalizing s with
  | zero => exact ⟨s, rfl⟩
  | succ n ih =>
    obtain ⟨v, hv⟩ := Option.isSome_iff_exists.1 (hw (s.outLen - offset) (by omega))
    obtain ⟨t, ht⟩ := ih (s := s.putByte v) (by simp only [State.putByte_outLen]; omega) fun a ha => by
      rw [State.putByte_outLen] at ha
      rw [State.putByte_out, Memory.read_write]
      split
      · rfl
      · exact hw a (by omega)
    exact ⟨t, by simp [copyLoop, hv, ht]⟩

/-- Everything `BackCopy` can do (R72, R73): the two raises, each before the loop, or the loop. -/
theorem backCopy_cases (cur : OpLabel) (offset length : Nat) (s : State) :
    ((offset = 0 ∨ s.outLen < offset) ∧
      backCopy cur offset length s = .ended (s.raise .invalidBackReference cur offset)) ∨
    ((1 ≤ offset ∧ offset ≤ s.outLen) ∧ s.cfg.hasRoom s.outLen length = false ∧
      backCopy cur offset length s = .ended (s.raise .outputCapacityExceeded cur length)) ∨
    ((1 ≤ offset ∧ offset ≤ s.outLen) ∧ s.cfg.hasRoom s.outLen length = true ∧
      backCopy cur offset length s = copyLoop offset length s) := by
  by_cases h : offset = 0 ∨ s.outLen < offset
  · exact .inl ⟨h, by simp [backCopy, h]⟩
  · have h' : 1 ≤ offset ∧ offset ≤ s.outLen := by omega
    cases hr : s.cfg.hasRoom s.outLen length with
    | false => exact .inr (.inl ⟨h', rfl, by simp [backCopy, h, hr]⟩)
    | true => exact .inr (.inr ⟨h', rfl, by simp [backCopy, h, hr]⟩)

end Sys2Proof.Machine
end

