-- ==== Sys2Proof/Laws/PerInstr.lean ====
section
/-! SUPPORT. Facts about every instruction as syntax, one lemma per constructor. The family EncodedSize: what an operation
is spelled with is as many bits and as many raw bytes as R49's table says. -/

namespace Sys2Proof.Laws.EncodedSize

open Sys2Proof.Machine

/-- The number of raw bytes among the items. -/
def rawCount : List Item → Nat
  | [] => 0
  | .bit _ :: is => rawCount is
  | .raw _ :: is => rawCount is + 1

def Statement (i : Instr) : Prop := (bitsOf (items i)).length = bitsRead i ∧ rawCount (items i) = rawRead i

@[simp] theorem bitsOf_append (a b : List Item) : bitsOf (a ++ b) = bitsOf a ++ bitsOf b := by
  induction a with
  | nil => rfl
  | cons x a ih => cases x <;> simp [bitsOf, ih]

@[simp] theorem bitsOf_bits (bs : List Bool) : bitsOf (bs.map .bit) = bs := by
  induction bs with
  | nil => rfl
  | cons b bs ih => simp [bitsOf, ih]

@[simp] theorem rawCount_append (a b : List Item) : rawCount (a ++ b) = rawCount a + rawCount b := by
  induction a with
  | nil => simp [rawCount]
  | cons x a ih => cases x <;> simp [rawCount, ih]; omega

@[simp] theorem rawCount_bits (bs : List Bool) : rawCount (bs.map .bit) = 0 := by
  induction bs with
  | nil => rfl
  | cons b bs ih => simpa [rawCount] using ih

@[simp] theorem gammaCode_length (v : Nat) : (gammaCode v).length = glen v := by
  unfold gammaCode glen
  rw [List.length_flatMap]
  simp [List.sum_replicate, Nat.mul_comm]

theorem first (l : Byte) : Statement (.first l) := ⟨rfl, rfl⟩
theorem lit (l : Byte) : Statement (.lit l) := ⟨rfl, rfl⟩
theorem shb (sv : Byte) : Statement (.shb sv) := ⟨rfl, rfl⟩
theorem endStream (sv : Byte) : Statement (.endStream sv) := ⟨rfl, rfl⟩
theorem sbZero : Statement .sbZero := ⟨rfl, rfl⟩
theorem sbCopy (d : BitVec 4) : Statement (.sbCopy d) := ⟨rfl, rfl⟩

theorem blkReuse (g2 : Nat) : Statement (.blkReuse g2) := by
  constructor
  · simp only [items, bitsOf_bits, List.length_append, gammaCode_length, bitsRead]; rfl
  · simp [items, rawRead]

theorem blk (g1 : Nat) (lo : Byte) (g2 : Nat) : Statement (.blk g1 lo g2) := by
  constructor
  · simp [items, bitsOf, bitsRead, Opcode.code]; omega
  · simp [items, rawCount, rawRead]

end Sys2Proof.Laws.EncodedSize
end

