-- ==== Sys2Proof/Laws/Reader.lean ====
section
/-! SUPPORT. The bit reader: what each read does to the cursor, and reading back what the encoder packed. -/

namespace Sys2Proof

/-! ## Sequencing -/

@[simp] theorem Read.bind_done {α β : Type} (v : α) (c : Cursor) (k : α → Cursor → Read β) :
    (Read.done v c).bind k = k v c := rfl

@[simp] theorem Read.bind_raised {α β : Type} (f : FaultCode) (c : Cursor) (k : α → Cursor → Read β) :
    (Read.raised f c : Read α).bind k = .raised f c := rfl

@[simp] theorem Read.under_done {α : Type} (cur : OpLabel) (v : α) (c : Cursor) (k : α → Cursor → Decoded) :
    (Read.done v c).under cur k = k v c := rfl

@[simp] theorem Read.under_raised {α : Type} (cur : OpLabel) (f : FaultCode) (c : Cursor) (k : α → Cursor → Decoded) :
    (Read.raised f c : Read α).under cur k = .raised f cur c := rfl

theorem Read.bind_eq_done {α β : Type} {r : Read α} {k : α → Cursor → Read β} {w : β} {c' : Cursor}
    (h : r.bind k = .done w c') : ∃ v c, r = .done v c ∧ k v c = .done w c' := by
  cases r with
  | done v c => exact ⟨v, c, rfl, h⟩
  | raised f c => cases h

theorem Read.bind_eq_raised {α β : Type} {r : Read α} {k : α → Cursor → Read β} {f : FaultCode} {c' : Cursor}
    (h : r.bind k = .raised f c') : r = .raised f c' ∨ ∃ v c, r = .done v c ∧ k v c = .raised f c' := by
  cases r with
  | done v c => exact .inr ⟨v, c, rfl, h⟩
  | raised g c => exact .inl (by simpa using h)

theorem Read.under_eq_instr {α : Type} {cur : OpLabel} {r : Read α} {k : α → Cursor → Decoded} {i : Instr} {c' : Cursor}
    (h : r.under cur k = .instr i c') : ∃ v c, r = .done v c ∧ k v c = .instr i c' := by
  cases r with
  | done v c => exact ⟨v, c, rfl, h⟩
  | raised f c => cases h

theorem Read.under_eq_raised {α : Type} {cur l : OpLabel} {r : Read α} {k : α → Cursor → Decoded} {f : FaultCode}
    {c' : Cursor} (h : r.under cur k = .raised f l c') :
    (r = .raised f c' ∧ l = cur) ∨ ∃ v c, r = .done v c ∧ k v c = .raised f l c' := by
  cases r with
  | done v c => exact .inr ⟨v, c, rfl, h⟩
  | raised g c =>
    simp only [Read.under_raised, Decoded.raised.injEq] at h
    obtain ⟨rfl, rfl, rfl⟩ := h
    exact .inl ⟨rfl, rfl⟩

/-! ## One byte and one bit -/

theorem inByte_cases (input : List Byte) (c : Cursor) :
    (input.length ≤ c.inPos ∧ inByte input c = .raised .unexpectedEndOfInput c) ∨
    ∃ v, input[c.inPos]? = some v ∧ c.inPos < input.length ∧
      inByte input c = .done v { c with inPos := c.inPos + 1 } := by
  unfold inByte
  cases h : input[c.inPos]? with
  | none => exact .inl ⟨by simpa using h, rfl⟩
  | some v => exact .inr ⟨v, rfl, (List.getElem?_eq_some_iff.1 h).1, rfl⟩

theorem bitCount_pos {n : BitVec 3} (h : n ≠ 0) : (n - 1).toNat + 1 = n.toNat := by
  have : n.toNat ≠ 0 := fun e => h (by apply BitVec.eq_of_toNat_eq; simpa using e)
  bv_omega

/-- Everything a bit read can do (R55). -/
theorem readBit_cases (input : List Byte) (c : Cursor) :
    (c.bitCount = 0 ∧ input.length ≤ c.inPos ∧ readBit input c = .raised .unexpectedEndOfInput c) ∨
    (∃ v, c.bitCount = 0 ∧ input[c.inPos]? = some v ∧ c.inPos < input.length ∧
      readBit input c = .done v.msb ⟨c.inPos + 1, 7, v <<< 1⟩) ∨
    (c.bitCount ≠ 0 ∧ readBit input c = .done c.tag.msb ⟨c.inPos, c.bitCount - 1, c.tag <<< 1⟩) := by
  unfold readBit
  by_cases hb : c.bitCount = 0
  · simp only [hb, if_true]
    obtain ⟨h, e⟩ | ⟨v, h, hl, e⟩ := inByte_cases input c
    · exact .inl ⟨trivial, h, by rw [e, Read.bind_raised]⟩
    · exact .inr (.inl ⟨v, trivial, h, hl, by rw [e, Read.bind_done]⟩)
  · exact .inr (.inr ⟨hb, by rw [if_neg hb]⟩)

/-- A bit read consumes one of the bits left. -/
theorem readBit_bitsLeft {input : List Byte} {c c' : Cursor} {b : Bool} (h : readBit input c = .done b c') :
    bitsLeft input c = bitsLeft input c' + 1 := by
  obtain ⟨-, -, e⟩ | ⟨v, hb, -, hl, e⟩ | ⟨hb, e⟩ := readBit_cases input c
  · rw [e] at h; cases h
  · rw [e] at h; cases h
    simp only [bitsLeft, hb]
    have : (7 : BitVec 3).toNat = 7 := rfl
    have : (0 : BitVec 3).toNat = 0 := rfl
    omega
  · rw [e] at h; cases h
    have := bitCount_pos hb
    simp only [bitsLeft]; omega

theorem readBit_of_bitsLeft_zero {input : List Byte} {c : Cursor} (h : bitsLeft input c = 0) :
    readBit input c = .raised .unexpectedEndOfInput c := by
  obtain ⟨-, -, e⟩ | ⟨v, hb, -, hl, -⟩ | ⟨hb, -⟩ := readBit_cases input c
  · exact e
  · simp only [bitsLeft] at h; omega
  · have := bitCount_pos hb
    simp only [bitsLeft] at h; omega

/-! ## The loop of the gamma number, without fuel -/

/-- More fuel than bits left changes nothing. -/
theorem gammaLoop_fuel (cfg : Config) (input : List Byte) :
    ∀ fuel acc c, bitsLeft input c ≤ fuel →
      gammaLoop cfg input fuel acc c = gammaLoop cfg input (bitsLeft input c) acc c := by
  intro fuel
  induction fuel using Nat.strong_induction_on with
  | _ fuel ih =>
    intro acc c h
    cases hk : bitsLeft input c with
    | zero =>
      cases fuel with
      | zero => rfl
      | succ n => simp [gammaLoop, readBit_of_bitsLeft_zero hk]
    | succ k =>
      obtain ⟨n, rfl⟩ : ∃ n, fuel = n + 1 := ⟨fuel - 1, by omega⟩
      simp only [gammaLoop]
      cases hr : readBit input c with
      | raised f c1 => rfl
      | done cont c1 =>
        have h1 := readBit_bitsLeft hr
        simp only [Read.bind_done]
        split
        · split
          · rfl
          · cases hr1 : readBit input c1 with
            | raised f c2 => rfl
            | done d c2 =>
              have h2 := readBit_bitsLeft hr1
              simp only [Read.bind_done]
              rw [ih n (by omega) _ _ (by omega), ih k (by omega) _ _ (by omega)]
        · rfl

/-- The loop of R57 as its rule states it: the continuation bit, the overflow check, the next data bit. -/
theorem gammaLoop_unfold (cfg : Config) (input : List Byte) (acc : Nat) (c : Cursor) :
    gammaLoop cfg input (bitsLeft input c) acc c =
      (readBit input c).bind fun cont c1 =>
        if cont then
          if gammaFull cfg acc then .raised .numberOverflow c1
          else (readBit input c1).bind fun d c2 => gammaLoop cfg input (bitsLeft input c2) (acc * 2 + d.toNat) c2
        else .done acc c1 := by
  cases hk : bitsLeft input c with
  | zero => simp [gammaLoop, readBit_of_bitsLeft_zero hk]
  | succ k =>
    simp only [gammaLoop]
    cases hr : readBit input c with
    | raised f c1 => rfl
    | done cont c1 =>
      have h1 := readBit_bitsLeft hr
      simp only [Read.bind_done]
      split
      · split
        · rfl
        · cases hr1 : readBit input c1 with
          | raised f c2 => rfl
          | done d c2 =>
            have h2 := readBit_bitsLeft hr1
            simp only [Read.bind_done]
            rw [gammaLoop_fuel cfg input k _ _ (by omega)]
      · rfl

/-! ## Tag bytes -/

theorem bitsVal_lt (n : Nat) (bs : List Bool) : bitsVal n bs < 2 ^ n := by
  induction n generalizing bs with
  | zero => simp [bitsVal]
  | succ n ih =>
    cases bs with
    | nil => simp [bitsVal]
    | cons b bs =>
      have := ih bs
      cases b <;> simp [bitsVal, Nat.pow_succ] <;> omega

@[simp] theorem bitsVal_nil (n : Nat) : bitsVal n [] = 0 := by cases n <;> rfl

theorem bitsVal_succ_take (n : Nat) (bs : List Bool) : bitsVal (n + 1) (bs.take n) = 2 * bitsVal n bs := by
  induction n generalizing bs with
  | zero => simp [bitsVal]
  | succ n ih =>
    cases bs with
    | nil => simp
    | cons b bs =>
      simp only [List.take_succ_cons, bitsVal, ih]
      ring

/-- The first bit of a list is bit 7 of its tag byte. -/
@[simp] theorem tagByte_msb (b : Bool) (bs : List Bool) : (tagByte (b :: bs)).msb = b := by
  have h := bitsVal_lt 7 bs
  have e : (tagByte (b :: bs)).toNat = b.toNat * 128 + bitsVal 7 bs := by
    have : b.toNat ≤ 1 := Bool.toNat_le b
    simp only [tagByte, bitsVal, BitVec.toNat_ofNat]; omega
  rw [BitVec.msb_eq_decide, e]
  cases b <;> simp <;> omega

/-- Shifting a tag byte left drops its first bit. -/
@[simp] theorem tagByte_shiftLeft (b : Bool) (bs : List Bool) :
    (tagByte (b :: bs)) <<< (1 : Nat) = tagByte (bs.take 7) := by
  have h := bitsVal_lt 7 bs
  have h2 : bitsVal 8 (bs.take 7) = 2 * bitsVal 7 bs := bitsVal_succ_take 7 bs
  apply BitVec.eq_of_toNat_eq
  have : b.toNat ≤ 1 := Bool.toNat_le b
  simp only [tagByte, BitVec.toNat_shiftLeft, BitVec.toNat_ofNat, h2, bitsVal, Nat.shiftLeft_eq]
  omega

/-! ## Reading back what was packed -/

/-- The items `is`, packed from the cursor's place on, are what comes next in the input, with `tail` after them. -/
def Ahead (input tail : List Byte) (c : Cursor) (is : List Item) : Prop :=
  c.tag = tagByte ((bitsOf is).take c.bitCount.toNat) ∧
  c.inPos + (pack c.bitCount.toNat is ++ tail).length = input.length ∧
  input.drop c.inPos = pack c.bitCount.toNat is ++ tail

theorem getElem?_of_drop {input : List Byte} {n : Nat} {v : Byte} {l : List Byte} (h : input.drop n = v :: l) :
    input[n]? = some v ∧ input.drop (n + 1) = l := by
  refine ⟨?_, ?_⟩
  · have := congrArg (·[0]?) h
    simpa using this
  · rw [← List.tail_drop, h]; rfl

theorem pack_raw (free : Nat) (v : Byte) (is : List Item) : pack free (.raw v :: is) = v :: pack free is := by
  cases free <;> rfl

/-- A raw byte ahead is what `ReadByte` returns. -/
theorem readByte_ahead {input tail : List Byte} {c : Cursor} {v : Byte} {is : List Item}
    (h : Ahead input tail c (.raw v :: is)) :
    ∃ c', readByte input c = .done v c' ∧ Ahead input tail c' is := by
  obtain ⟨ht, hl, hd⟩ := h
  rw [pack_raw] at hl hd
  obtain ⟨hg, hd'⟩ := getElem?_of_drop hd
  refine ⟨{ c with inPos := c.inPos + 1 }, by simp [readByte, inByte, hg], ht, ?_, hd'⟩
  simp only [List.cons_append, List.length_cons] at hl
  simpa using (by omega : c.inPos + 1 + (pack c.bitCount.toNat is ++ tail).length = input.length)

/-- A bit ahead is what `ReadBit` returns, whether or not it needs a reload. -/
theorem readBit_ahead {input tail : List Byte} {c : Cursor} {b : Bool} {is : List Item}
    (h : Ahead input tail c (.bit b :: is)) :
    ∃ c', readBit input c = .done b c' ∧ Ahead input tail c' is := by
  obtain ⟨ht, hl, hd⟩ := h
  by_cases hb : c.bitCount = 0
  · have h0 : c.bitCount.toNat = 0 := by rw [hb]; rfl
    rw [h0] at hl hd
    simp only [pack, List.cons_append] at hl hd
    obtain ⟨hg, hd'⟩ := getElem?_of_drop hd
    refine ⟨⟨c.inPos + 1, 7, tagByte ((bitsOf is).take 7)⟩, ?_, rfl, ?_, hd'⟩
    · simp [readBit, hb, inByte, hg]
    · simp only [List.length_cons] at hl
      simpa using (by omega : c.inPos + 1 + (pack 7 is ++ tail).length = input.length)
  · have hp := bitCount_pos hb
    have hlt : c.bitCount.toNat < 8 := c.bitCount.isLt
    rw [← hp] at hl hd ht
    simp only [pack] at hl hd
    simp only [bitsOf, List.take_succ_cons] at ht
    refine ⟨⟨c.inPos, c.bitCount - 1, tagByte ((bitsOf is).take (c.bitCount - 1).toNat)⟩, ?_, rfl, hl, hd⟩
    simp only [readBit, hb, if_false, ht, tagByte_msb, tagByte_shiftLeft, List.take_take]
    rw [Nat.min_eq_right (by omega)]

end Sys2Proof
end

