-- ==== Sys2Proof/Laws/Step.lean ====
section
/-! SUPPORT. Everything a step can do, and everything a meaning can do, said once. -/

namespace Sys2Proof.Machine

theorem inSession_iff (s : State) : inSession s = true ↔ s.fsm = .start ∨ s.fsm = .running := by
  simp [inSession]

/-- In START and RUNNING, with legal parameters, a step fires. -/
theorem step_fires {s : State} (hc : configured s = true) (hs : inSession s = true) : step s = fire s := by
  obtain h | h := (inSession_iff s).1 hs <;> simp [step, sessionStep, hc, h]

/-- A step that decodes an operation runs it in the state its reads leave. -/
theorem step_instr {s : State} {i : Instr} {c : Cursor} (hc : configured s = true) (hs : inSession s = true)
    (hf : fetch s = .instr i c) : step s = exec i (s.withCursor c) := by
  rw [step_fires hc hs, fire, hf]

/-- A step whose reads raise a fault enters FAILED from the state at the raise. -/
theorem step_raised {s : State} {f : FaultCode} {cur : OpLabel} {c : Cursor} (hc : configured s = true)
    (hs : inSession s = true) (hf : fetch s = .raised f cur c) :
    step s = .next ((s.withCursor c).raise f cur 0) := by
  rw [step_fires hc hs, fire, hf]

/-- Everything a step that answers a next state can have done. -/
theorem step_next {s t : State} (h : step s = .next t) :
    configured s = true ∧ inSession s = true ∧
    ((∃ i c, fetch s = .instr i c ∧ exec i (s.withCursor c) = .next t) ∨
     ∃ f cur c, fetch s = .raised f cur c ∧ t = (s.withCursor c).raise f cur 0) := by
  cases hc : configured s with
  | false => simp [step, sessionStep, hc] at h
  | true =>
    cases hs : inSession s with
    | false =>
      exfalso
      have hn := (inSession_iff s).not.1 (by simp [hs])
      cases hf : s.fsm <;> simp [step, sessionStep, hc, hf] at h hn
    | true =>
      refine ⟨rfl, rfl, ?_⟩
      cases hf : fetch s with
      | instr i c => exact .inl ⟨i, c, rfl, by rw [← step_instr hc hs hf, h]⟩
      | raised f cur c =>
        rw [step_raised hc hs hf] at h
        exact .inr ⟨f, cur, c, rfl, (by simpa using h.symm)⟩

/-- A run goes on from the state a step answers. -/
theorem run_next {s t : State} (h : step s = .next t) (k : Nat) :
    Host.Core.run Sys2Proof.core (k + 1) s = Host.Core.run Sys2Proof.core k t := by
  have h' : Sys2Proof.core.step s = .next t := h
  simp only [Host.Core.run, h']

/-! ## The meanings -/

theorem configured_withCursor (s : State) (c : Cursor) : configured (s.withCursor c) = configured s := rfl

theorem selects_iff (i : Instr) (s : State) :
    selects i s = true ↔
      i.wf s.cfg = true ∧ inSession s = true ∧ i.selected (decide (s.fsm = .start)) s.pair = true := by
  simp [selects, and_assoc]

theorem hasRoom_iff (cfg : Config) (outLen n : Nat) :
    cfg.hasRoom outLen n = true ↔ ∀ cap, cfg.outCap = some cap → outLen + n ≤ cap := by
  unfold Config.hasRoom
  cases cfg.outCap <;> simp

/-- Every arm of `exec` is an operation with its guard. -/
theorem exec_operation (i : Instr) (s : State) : ∃ body, exec i s = operation i s body := by
  cases i <;>
    simp only [exec, execFirst, execLit, execBlkReuse, execBlk, execShb, execEndStream, execSbZero, execSbCopy] <;>
    exact ⟨_, rfl⟩

/-- What a meaning that appends `v` and then updates the state by `fin` leaves. -/
inductive AppendEffect (cur : OpLabel) (v : Byte) (fin : State → State) (s t : State) : Prop
  | completed (room : s.cfg.hasRoom s.outLen 1 = true) (eq : t = fin (s.putByte v))
  | full (room : s.cfg.hasRoom s.outLen 1 = false) (eq : t = s.raise .outputCapacityExceeded cur 1)

/-- What a meaning that makes a back-copy in `s` and then updates the state by `fin` leaves. -/
inductive CopyEffect (cur : OpLabel) (offset length : Nat) (fin : State → State) (s t : State) : Prop
  | completed (u : State) (bound : 1 ≤ offset ∧ offset ≤ s.outLen) (room : s.cfg.hasRoom s.outLen length = true)
      (loop : copyLoop offset length s = .go u) (eq : t = fin u)
  | invalid (bound : offset = 0 ∨ s.outLen < offset) (eq : t = s.raise .invalidBackReference cur offset)
  | full (bound : 1 ≤ offset ∧ offset ≤ s.outLen) (room : s.cfg.hasRoom s.outLen length = false)
      (eq : t = s.raise .outputCapacityExceeded cur length)

theorem appendEffect {cur : OpLabel} {v : Byte} {s t : State} {k : State → Flow} {fin : State → State}
    (hk : ∀ u, k u = .go (fin u)) (h : (append cur v s).andThen k = .go t ∨ (append cur v s).andThen k = .ended t) :
    AppendEffect cur v fin s t := by
  obtain ⟨hr, e⟩ | ⟨hr, e⟩ := append_cases cur v s
  · exact .completed hr (by simpa [e, hk, eq_comm] using h)
  · exact .full hr (by simpa [e, eq_comm] using h)

theorem copyEffect {cur : OpLabel} {offset length : Nat} {s t : State} {k : State → Flow} {fin : State → State}
    (hk : ∀ u, k u = .go (fin u))
    (h : (backCopy cur offset length s).andThen k = .go t ∨ (backCopy cur offset length s).andThen k = .ended t) :
    CopyEffect cur offset length fin s t := by
  obtain ⟨hb, e⟩ | ⟨hb, hr, e⟩ | ⟨hb, hr, e⟩ := backCopy_cases cur offset length s
  · exact .invalid hb (by simpa [e, eq_comm] using h)
  · exact .full hb hr (by simpa [e, eq_comm] using h)
  · rw [e] at h
    cases hc : copyLoop offset length s with
    | go u => exact .completed u hb hr hc (by simpa [hc, hk, eq_comm] using h)
    | ended u => exact absurd hc copyLoop_not_ended
    | stopped f => simp [hc] at h

/-- Everything each meaning can do when it answers a next state. -/
def Effect (i : Instr) (s t : State) : Prop :=
  match i with
  | .first l => AppendEffect .first l (fun u => (u.setPair true).setFsm .running) s t
  | .lit l => AppendEffect .lit l (fun u => u.setPair true) s t
  | .blkReuse g2 => CopyEffect .block s.lastOffset g2 (fun u => u.setPair false) s t
  | .blk g1 lo g2 =>
    CopyEffect .block (blockOffset g1 s.pair lo) (blockLength (blockOffset g1 s.pair lo) g2) (fun u => u.setPair false)
      (s.setLastOffset (blockOffset g1 s.pair lo)) t
  | .shb sv =>
    CopyEffect .short (shortOffset sv) (shortLength sv) (fun u => (u.setLastOffset (shortOffset sv)).setPair false) s t
  | .endStream _ => t = s.setFsm .terminated
  | .sbZero => AppendEffect .single 0 (fun u => u.setPair true) s t
  | .sbCopy d => CopyEffect .single (singleOffset d) 1 (fun u => u.setPair true) s t

/-- A meaning that answers a next state was selected, under legal parameters, and had its effect. -/
theorem exec_effect {i : Instr} {s t : State} (h : exec i s = .next t) :
    configured s = true ∧ selects i s = true ∧ Effect i s t := by
  cases i <;>
    (simp only [exec, execFirst, execLit, execBlkReuse, execBlk, execShb, execEndStream, execSbZero, execSbCopy] at h
     obtain ⟨hc, hs, h⟩ := operation_next h
     refine ⟨hc, hs, ?_⟩)
  · exact appendEffect (fun _ => rfl) h
  · exact appendEffect (fun _ => rfl) h
  · exact copyEffect (fun _ => rfl) h
  · exact copyEffect (fun _ => rfl) h
  · exact copyEffect (fun _ => rfl) h
  · simpa [halt, eq_comm, Effect] using h
  · exact appendEffect (fun _ => rfl) h
  · exact copyEffect (fun _ => rfl) h

end Sys2Proof.Machine
end

