-- ==== Sys2Proof/Tests/Slice0.lean ====
section
/-! SUPPORT. The model's own tests. The expected results are the vectors of spec/95_test_vectors.md, named in each comment,
or hand calculation from the rule named. `witness_X` shows a concrete case that meets the hypotheses of
`Obligations.X`. -/

namespace Sys2Proof.Tests

open Sys2Proof Sys2Proof.Machine

/-! ## Helpers -/

/-- OUT holding the bytes `bs` from index `a` up. -/
def outOf : Nat → List Byte → Memory
  | _, [] => []
  | a, b :: bs => (a, b) :: outOf (a + 1) bs

/-- A session in RUNNING with no tag bit left: the output so far, `pair`, `last_offset` and the input ahead. -/
def running (out : List Byte) (pair : Bool) (lastOffset : Nat) (input : List Byte) : State :=
  { State.reset with input := input, out := outOf 0 out, outLen := out.length, pair := pair, lastOffset := lastOffset,
                     fsm := .running }

/-- The same state under another OUT_CAP. -/
def capped (cap : Nat) (s : State) : State := { s with cfg := { s.cfg with outCap := some cap } }

/-- The session-start state (R29) on an input. -/
def started (input : List Byte) : State := State.reset.sessionStart input

/-- NUM_BITS = 4, with the largest OUT_CAP that R5 allows beside it. -/
def narrow : Config := { Config.reference with outCap := some 12, numBits := some 4 }

/-- The next state of an outcome. -/
def next? : Host.Outcome State Fault Refusal → Option State
  | .next s => some s
  | .fault _ => none
  | .refused _ => none

/-- The fault record of a failed step (R19). -/
def failure? (o : Host.Outcome State Fault Refusal) : Option (Option FaultCode × OpLabel × Nat) :=
  (next? o).map fun t => (t.errCode, t.errOp, t.errInfo)

/-- What the tests look at after a completed operation: `out_len`, `pair`, `last_offset`, `in_pos`, `bit_count`. -/
def after? (o : Host.Outcome State Fault Refusal) : Option (Nat × Bool × Nat × Nat × Nat) :=
  (next? o).map fun t => (t.outLen, t.pair, t.lastOffset, t.inPos, t.bitCount.toNat)

/-- OUT after a step. -/
def out? (o : Host.Outcome State Fault Refusal) : Option Memory := (next? o).map State.out

/-! ## WellFormed and the parameters: a term for each check that the check refuses -/

/-- R50: values 0 and 1 have no code. -/
theorem test_wf_gamma_low :
    (Instr.blkReuse 1).wf .reference = false ∧ (Instr.blk 1 0 2).wf .reference = false ∧
    (Instr.blk 2 0 1).wf .reference = false ∧ (Instr.blk 2 0 2).wf .reference = true := by decide

/-- R5, R60: with NUM_BITS = 4 the value 16 does not fit and 15 does. -/
theorem test_wf_gamma_wide :
    (Instr.blkReuse 16).wf narrow = false ∧ (Instr.blk 16 0 2).wf narrow = false ∧
    (Instr.blk 2 0 16).wf narrow = false ∧ (Instr.blk 15 0 15).wf narrow = true := by decide

/-- R49: `S >= 2` selects SHB, `S <= 1` END, `D != 0` SB_COPY. -/
theorem test_wf_bytes :
    (Instr.shb 1).wf .reference = false ∧ (Instr.shb 2).wf .reference = true ∧
    (Instr.endStream 2).wf .reference = false ∧ (Instr.endStream 1).wf .reference = true ∧
    (Instr.sbCopy 0).wf .reference = false ∧ (Instr.sbCopy 15).wf .reference = true := by decide

/-- R49, R54: FIRST stands first and only there, BLK_REUSE needs `pair` = 1, and `G1` = 2 with `pair` = 1 is not BLK. -/
theorem test_streamOk_context :
    streamOk .reference true false [.lit 0] = false ∧ streamOk .reference true false [.first 0, .first 0] = false ∧
    streamOk .reference true false [.first 0, .shb 2, .blkReuse 2] = false ∧
    streamOk .reference true false [.first 0, .blk 2 1 2] = false ∧
    streamOk .reference true false [.first 0, .shb 2, .blk 2 1 2] = true := by decide

/-- R5 at the edge of its constraint: `2^4 - 1 = 12 + 3`. -/
theorem test_config_valid :
    Config.reference.valid = true ∧ narrow.valid = true ∧ { narrow with outCap := some 13 }.valid = false ∧
    { narrow with outCap := none }.valid = false ∧ { narrow with numBits := none }.valid = true ∧
    { Config.reference with outCap := some 0 }.valid = false ∧ { Config.reference with tagSize := 2 }.valid = false := by
  decide

/-! ## The bit reader -/

/-- BR2 and BR3: the last bit of a tag causes no reload; the next read does. -/
theorem test_readBit_lazy :
    readBit [0x01, 0xFF] ⟨0, 1, 0x80⟩ = .done true ⟨0, 0, 0x00⟩ ∧
    readBit [0x01, 0xFF] ⟨0, 0, 0x00⟩ = .done false ⟨1, 7, 0x02⟩ := by decide

/-- BR5: the raw byte comes from the input, the next bit from the tag. -/
theorem test_readByte_keeps_tag :
    readByte [0x41, 0x80] ⟨0, 5, 0x40⟩ = .done 0x41 ⟨1, 5, 0x40⟩ ∧
    readBit [0x41, 0x80] ⟨1, 5, 0x40⟩ = .done false ⟨1, 4, 0x80⟩ := by decide

/-- BR7 to BR10. -/
theorem test_readFixed :
    readFixed [0xA0] 4 0 ⟨0, 0, 0⟩ = .done 10 ⟨1, 4, 0⟩ ∧ readFixed [0x00] 4 0 ⟨0, 0, 0⟩ = .done 0 ⟨1, 4, 0⟩ ∧
    readFixed [0xF0] 4 0 ⟨0, 0, 0⟩ = .done 15 ⟨1, 4, 0⟩ ∧ readFixed [0x10] 4 0 ⟨0, 0, 0⟩ = .done 1 ⟨1, 4, 0⟩ := by
  decide

/-- BR11 to BR15. -/
theorem test_readUnary :
    readUnary [0x00] 3 true ⟨0, 0, 0⟩ = .done 0 ⟨1, 7, 0x00⟩ ∧ readUnary [0x80] 3 true ⟨0, 0, 0⟩ = .done 1 ⟨1, 6, 0x00⟩ ∧
    readUnary [0xC0] 3 true ⟨0, 0, 0⟩ = .done 2 ⟨1, 5, 0x00⟩ ∧ readUnary [0xE0] 3 true ⟨0, 0, 0⟩ = .done 3 ⟨1, 5, 0x00⟩ ∧
    readUnary [0xF0] 3 true ⟨0, 0, 0⟩ = .done 3 ⟨1, 5, 0x80⟩ := by decide

/-- W1, read: 2, 3, 4, 7, 14 and 170 from their codes, written out as tag bytes. -/
theorem test_readGamma_table :
    readGamma .reference [0b00000000] ⟨0, 0, 0⟩ = .done 2 ⟨1, 6, 0⟩ ∧
    readGamma .reference [0b10000000] ⟨0, 0, 0⟩ = .done 3 ⟨1, 6, 0⟩ ∧
    readGamma .reference [0b01000000] ⟨0, 0, 0⟩ = .done 4 ⟨1, 4, 0⟩ ∧
    readGamma .reference [0b11100000] ⟨0, 0, 0⟩ = .done 7 ⟨1, 4, 0⟩ ∧
    readGamma .reference [0b11110000] ⟨0, 0, 0⟩ = .done 14 ⟨1, 2, 0⟩ ∧
    readGamma .reference [0b01110111, 0b01110000] ⟨0, 0, 0⟩ = .done 170 ⟨2, 2, 0⟩ := by decide

/-- W1, written: the encoder's codes. -/
theorem test_gammaCode_table :
    gammaCode 2 = [false, false] ∧ gammaCode 3 = [true, false] ∧ gammaCode 4 = [false, true, false, false] ∧
    gammaCode 7 = [true, true, true, false] ∧ gammaCode 14 = [true, true, true, true, false, false] ∧
    gammaCode 170 = [false, true, true, true, false, true, true, true, false, true, true, true, false, false] := by
  decide

/-- BR25 and BR26: with NUM_BITS = 4 the code of 16 overflows after 6 bits, and that of 15 does not. -/
theorem test_readGamma_overflow :
    readGamma narrow [0b01010100] ⟨0, 0, 0⟩ = .raised .numberOverflow ⟨1, 2, 0⟩ ∧
    readGamma narrow [0b11111000] ⟨0, 0, 0⟩ = .done 15 ⟨1, 2, 0⟩ := by decide

/-! ## Decoding: a word of each operation written out from R49 -/

/-- P1: FIRST takes `in[0]` and no bit. -/
theorem test_decode_first :
    decode .reference true false [0x41, 0x52] ⟨0, 0, 0⟩ = .instr (.first 0x41) ⟨1, 0, 0⟩ := by decide

/-- P4, step 3: the prefix is the tag's last bit, and the byte after that tag is LIT's, not a tag (R106). -/
theorem test_decode_lit_lazy :
    decode .reference false true [0x41, 0xE2, 0x42, 0xC0, 0x00] ⟨2, 1, 0x00⟩ = .instr (.lit 0x42) ⟨3, 0, 0x00⟩ := by decide

/-- P2, step 5: `10 00 10` from the middle of a tag. -/
theorem test_decode_blkReuse :
    decode .reference false true [0x41, 0xDC, 0x03, 0x39, 0x45, 0x80, 0x00] ⟨5, 7, 0x8A⟩
      = .instr (.blkReuse 3) ⟨5, 1, 0x80⟩ := by decide

/-- OP11 and OP14: `G1` = 7 within a tag, `G1` = 128 across two. -/
theorem test_decode_blk :
    decode .reference false true [0b10111000, 0xFF, 0xC0, 0x00] ⟨0, 0, 0⟩ = .instr (.blk 7 0xFF 2) ⟨2, 0, 0⟩ ∧
    decode .reference false true [0b10010101, 0b01010100, 0x00, 0b00110000, 0x00] ⟨0, 0, 0⟩
      = .instr (.blk 128 0x00 2) ⟨4, 6, 0xC0⟩ := by decide

/-- OP19: the odd form, `G1` = 2 with `pair` = 0, reads its `LO`. -/
theorem test_decode_blk_odd :
    decode .reference false false [0b10000000, 0x02] ⟨0, 0, 0⟩ = .instr (.blk 2 0x02 2) ⟨2, 2, 0⟩ := by decide

/-- OP23, and OP28 with END's other value. -/
theorem test_decode_short :
    decode .reference false true [0xC0, 0xFF] ⟨0, 0, 0⟩ = .instr (.shb 0xFF) ⟨2, 5, 0⟩ ∧
    decode .reference false true [0xDF, 0x00, 0xFF, 0xFF] ⟨0, 0, 0⟩ = .instr (.endStream 0x00) ⟨2, 5, 0xF8⟩ := by decide

/-- P2, step 3 (`D` crosses into a new tag), and OP32. -/
theorem test_decode_single :
    decode .reference false false [0x41, 0xDC, 0x03, 0x39, 0x45] ⟨3, 5, 0xE0⟩ = .instr .sbZero ⟨4, 6, 0xE4⟩ ∧
    decode .reference false true [0b11111110] ⟨0, 0, 0⟩ = .instr (.sbCopy 15) ⟨1, 1, 0⟩ := by decide

/-- P2 and P3, assembled byte for byte. -/
theorem test_assemble :
    assemble [.first 0x41, .shb 0x03, .sbZero, .sbCopy 2, .blkReuse 3, .endStream 0]
      = [0x41, 0xDC, 0x03, 0x39, 0x45, 0x80, 0x00] ∧
    assemble [.first 0x10, .lit 0x20, .lit 0x30, .shb 0x06, .blk 2 0x05 2, .sbCopy 4, .lit 0x99, .blkReuse 2, .endStream 1]
      = [0x10, 0x34, 0x20, 0x30, 0x06, 0x1D, 0x05, 0x10, 0x99, 0x60, 0x01] := by decide

/-- R48's window: bit 2 of a table word is the first prefix bit (assumption 9). -/
theorem test_decodeTableWord :
    decodeTableWord 0 0x2A = some (.first 0x2A) ∧ decodeTableWord 3 0 = some (.lit 0) ∧
    decodeTableWord 3 4 = some (.blkReuse 2) ∧ decodeTableWord 3 5 = some (.blk 3 0 2) ∧
    decodeTableWord 3 6 = some (.endStream 0) ∧ decodeTableWord 16 0x0306 = some (.shb 3) ∧
    decodeTableWord 3 7 = some .sbZero ∧ decodeTableWord 8 0b00100111 = some (.sbCopy 2) := by decide

/-- The step after `withFetchWord` runs the word: FIRST and LIT complete, REP before any copy raises
`InvalidBackReference(0)` (FX8). -/
theorem test_withFetchWord :
    after? (step (State.reset.withFetchWord 0 0x2A)) = some (1, true, 0, 1, 0) ∧
    after? (step (State.reset.withFetchWord 3 0)) = some (1, true, 0, 2, 7) ∧
    failure? (step (State.reset.withFetchWord 3 4)) = some (some .invalidBackReference, .block, 0) := by decide

/-! ## One step of each operation -/

/-- OP1 and FX1. -/
theorem test_step_first :
    after? (step (started [0x2A, 0xC0, 0x00])) = some (1, true, 0, 1, 0) ∧
    out? (step (started [0x2A, 0xC0, 0x00])) = some [(0, 0x2A)] ∧
    failure? (step (started [])) = some (some .unexpectedEndOfInput, .first, 0) := by decide

/-- OP3. -/
theorem test_step_lit :
    after? (step (running [0x41] false 0 [0x52, 0x42])) = some (2, true, 0, 2, 7) ∧
    out? (step (running [0x41] false 0 [0x52, 0x42])) = some [(0, 0x41), (1, 0x42)] := by decide

/-- OP4: the raw byte has been consumed when the capacity check fails. -/
theorem test_step_lit_full :
    failure? (step (capped 1 (running [0x41] true 0 [0x00, 0x42]))) = some (some .outputCapacityExceeded, .lit, 1) ∧
    after? (step (capped 1 (running [0x41] true 0 [0x00, 0x42]))) = some (1, true, 0, 2, 7) := by decide

/-- OP5: no length correction, `last_offset` kept. -/
theorem test_step_blkReuse :
    after? (step (running [0x41, 0x41, 0x41, 0x41, 0x00, 0x41] true 1 [0x88])) = some (9, false, 1, 1, 2) ∧
    (out? (step (running [0x41, 0x41, 0x41, 0x41, 0x00, 0x41] true 1 [0x88]))).map (·.read 8) = some (some 0x41) := by
  decide

/-- OP7. -/
theorem test_step_blkReuse_full :
    failure? (step (capped 4 (running [0x41, 0x42] true 2 [0x88]))) = some (some .outputCapacityExceeded, .block, 3) := by
  decide

/-- OP8: an overlapping copy of 6 at offset 2. -/
theorem test_step_blk :
    after? (step (running [0x41, 0x42] true 0 [0xA4, 0x02])) = some (8, false, 2, 2, 0) ∧
    out? (step (running [0x41, 0x42] true 0 [0xA4, 0x02])) =
      some [(0, 0x41), (1, 0x42), (2, 0x41), (3, 0x42), (4, 0x41), (5, 0x42), (6, 0x41), (7, 0x42)] := by decide

/-- OP18: `last_offset` shows the rejected offset, `pair` is not written. -/
theorem test_step_blk_bad :
    failure? (step (running [0x41] true 0 [0xA0, 0x05])) = some (some .invalidBackReference, .block, 5) ∧
    after? (step (running [0x41] true 0 [0xA0, 0x05])) = some (1, true, 5, 2, 2) := by decide

/-- OP21. -/
theorem test_step_shb :
    after? (step (running [0x41] true 0 [0xC0, 0x03])) = some (4, false, 1, 2, 5) ∧
    out? (step (running [0x41] true 0 [0xC0, 0x03])) = some [(0, 0x41), (1, 0x41), (2, 0x41), (3, 0x41)] := by decide

/-- FX13: the offset check comes first, and `last_offset` and `pair` keep their values. -/
theorem test_step_shb_bad :
    failure? (step (capped 1 (running [0x41] true 0 [0xD8, 0x04]))) = some (some .invalidBackReference, .short, 2) ∧
    after? (step (capped 1 (running [0x41] true 0 [0xD8, 0x04]))) = some (1, true, 0, 2, 5) := by decide

/-- OP26, and OP28 for the tag left. -/
theorem test_step_end :
    (next? (step (running [0x41] true 7 [0xC0, 0x00]))).map State.fsm = some .terminated ∧
    after? (step (running [0x41] true 7 [0xDF, 0x01, 0xFF, 0xFF])) = some (1, true, 7, 2, 5) ∧
    (next? (step (running [0x41] true 7 [0xDF, 0x01, 0xFF, 0xFF]))).map State.tag = some 0xF8 := by decide

/-- OP29: no raw byte is read. -/
theorem test_step_sbZero :
    after? (step (running [0x41, 0x41] false 1 [0xE0])) = some (3, true, 1, 1, 1) ∧
    out? (step (running [0x41, 0x41] false 1 [0xE0])) = some [(0, 0x41), (1, 0x41), (2, 0x00)] := by decide

/-- OP30. -/
theorem test_step_sbZero_full :
    failure? (step (capped 2 (running [0x41, 0x41] true 0 [0xE0]))) = some (some .outputCapacityExceeded, .single, 1) := by
  decide

/-- OP31: `last_offset` is not written (D7). -/
theorem test_step_sbCopy :
    after? (step (running [0x41, 0x42, 0x43, 0x44, 0x00] false 1 [0xE4])) = some (6, true, 1, 1, 1) ∧
    (out? (step (running [0x41, 0x42, 0x43, 0x44, 0x00] false 1 [0xE4]))).map (·.read 5) = some (some 0x44) := by decide

/-- OP33. -/
theorem test_step_sbCopy_bad :
    failure? (step (running [0x41] true 0 [0xF0])) = some (some .invalidBackReference, .single, 8) := by decide

/-- FX14 and FX15 under NUM_BITS = 4. -/
theorem test_step_narrow :
    failure? (step { running [0x41] true 0 [0x95, 0x00] with cfg := narrow }) = some (some .numberOverflow, .block, 0) ∧
    failure? (step { running [0x41] true 0 [0xBE, 0x00, 0x00] with cfg := narrow })
      = some (some .invalidBackReference, .block, 3072) := by decide

/-- DC16: the offset check comes before the capacity check. -/
theorem test_backCopy_order :
    failure? (backCopy .short 4 1 (capped 3 (running [0x10, 0x20, 0x30] false 0 []))).outcome
      = some (some .invalidBackReference, .short, 4) := by decide

/-! ## The host -/

/-- RS6 and RS8. -/
theorem test_host_words :
    statusWord { State.reset with fsm := .failed, errCode := some .invalidBackReference, errOp := .short } = 0x524 ∧
    contextWord { State.reset with bitCount := 4, tag := 0xC0 } = 0xC008 := by decide

/-- RS9, and a start command in IDLE. -/
theorem test_host_ctrl :
    next? (writeRegister 0 0 [] State.reset) = some State.reset ∧
    next? (writeRegister 0 1 [0x2A] State.reset) = some (started [0x2A]) := by decide

/-- W4 after the start command: FIRST, then END. -/
theorem test_session_W4 :
    after? (Host.Core.run Sys2Proof.core 2 (started [0x2A, 0xC0, 0x00])) = some (1, true, 0, 3, 5) ∧
    (next? (Host.Core.run Sys2Proof.core 2 (started [0x2A, 0xC0, 0x00]))).map State.fsm = some .terminated := by decide

/-- R96: the record of OP8's step. -/
theorem test_trace :
    emitted { running [0x41, 0x42] true 0 [0xA4, 0x02] with cfg := { Config.reference with traceEn := true } }
      = some (.operation "BLK" { g1 := some 3, lo := some 2, g2 := some 4, offset := some 2, length := some 6 } 8 2) := by
  decide

/-! ## Witnesses: encoding and decoding -/

theorem outOf_read (a i : Nat) (bs : List Byte) : (outOf a bs).read (a + i) = bs[i]? := by
  induction bs generalizing a i with
  | nil => rfl
  | cons b bs ih =>
    cases i with
    | zero => simp [outOf, Memory.read]
    | succ i =>
      have h := ih (a + 1) i
      rw [show a + 1 + i = a + (i + 1) by omega] at h
      simp [outOf, Memory.read, h]

theorem outOf_rises (a : Nat) (bs : List Byte) : Memory.risesFrom a (outOf a bs) = true := by
  induction bs generalizing a with
  | nil => rfl
  | cons b bs ih => simp [outOf, Memory.risesFrom, ih]

theorem written_running (out : List Byte) (pair : Bool) (lastOffset : Nat) (input : List Byte) :
    Written (running out pair lastOffset input) := by
  intro a ha
  have h := outOf_read 0 a out
  rw [Nat.zero_add] at h
  change ((outOf 0 out).read a).isSome = true
  rw [h]
  simpa [running] using ha

theorem written_capped (cap : Nat) (out : List Byte) (pair : Bool) (lastOffset : Nat) (input : List Byte) :
    Written (capped cap (running out pair lastOffset input)) := written_running out pair lastOffset input

/-- An outcome that `next?` and `f` see as `v` is a next state with that value. -/
theorem next_of {α : Type} {o : Host.Outcome State Fault Refusal} {f : State → α} {v : α}
    (h : (next? o).map f = some v) : ∃ t, o = .next t ∧ f t = v := by
  cases o with
  | next t => exact ⟨t, rfl, by simpa [next?] using h⟩
  | fault r => cases h
  | refused r => cases h

theorem inv_running (b : Byte) (out : List Byte) (input : List Byte) : Inv (running (b :: out) true 0 input) where
  config := rfl
  outCanonical := outOf_rises 0 _
  outWritten := written_running _ _ _ _
  outWithin := by intro cap h; cases h
  outInside := by intro cap a h; cases h
  cursorWithin := Nat.zero_le _
  tagTail := rfl
  offsetInRange := fun _ => Nat.zero_le _
  noFault := fun _ => ⟨rfl, rfl, rfl⟩
  faultRecorded := by intro h; cases h
  endOfData := by intro h; cases h
  startFresh := by intro h; cases h <;> contradiction
  outNonempty := fun _ => by simp [running]
  offsetFits := by intro n h; cases h
  infoFits := by intro n h; cases h

theorem inv_started (input : List Byte) : Inv (started input) where
  config := rfl
  outCanonical := rfl
  outWritten := by intro a h; cases h
  outWithin := by intro cap h; cases h
  outInside := by intro cap a h; cases h
  cursorWithin := Nat.zero_le _
  tagTail := rfl
  offsetInRange := fun _ => Nat.zero_le _
  noFault := fun _ => ⟨rfl, rfl, rfl⟩
  faultRecorded := by intro h; cases h
  endOfData := by intro h; cases h
  startFresh := fun _ => ⟨rfl, rfl, rfl, rfl, rfl, rfl⟩
  outNonempty := by intro h; cases h <;> contradiction
  offsetFits := by intro n h; cases h
  infoFits := by intro n h; cases h

theorem witness_EncodedOperationDecodesBack :
    (Instr.first 0xFF).wf narrow = true ∧ (Instr.first 0xFF).selected true false = true ∧
    (Instr.blkReuse 15).wf narrow = true ∧ (Instr.blkReuse 15).selected false true = true ∧
    (Instr.blk 2 0 2).wf narrow = true ∧ (Instr.blk 2 0 2).selected false false = true ∧
    (Instr.blk 3 0xFF 15).wf narrow = true ∧ (Instr.blk 3 0xFF 15).selected false true = true ∧
    (Instr.shb 2).wf narrow = true ∧ (Instr.shb 2).selected false true = true ∧
    (Instr.endStream 1).wf narrow = true ∧ (Instr.endStream 1).selected false true = true ∧
    (Instr.sbCopy 15).wf narrow = true ∧ (Instr.sbCopy 15).selected false true = true := by decide

theorem witness_AssembledStreamDecodesBack :
    streamOk .reference true false [.first 0x41, .shb 0x03, .blk 2 1 2, .sbZero, .sbCopy 2, .blkReuse 3, .endStream 0]
      = true := by decide

theorem witness_DecodedOperationIsInRangeAndSelected :
    narrow.valid = true ∧ decode narrow false true [0b10111110, 0x00, 0x00] ⟨0, 0, 0⟩ = .instr (.blk 15 0 2) ⟨3, 6, 0⟩ := by
  decide

theorem witness_OperationReadsItsBitsAndBytes :
    decode .reference false true [0x95, 0x54, 0x00, 0x30] ⟨0, 0, 0⟩ = .instr (.blk 128 0 2) ⟨4, 6, 0xC0⟩ ∧
    decode .reference true true [0x2A] ⟨0, 0, 0⟩ = .instr (.first 0x2A) ⟨1, 0, 0⟩ := by decide

theorem witness_BitReadReloadsOnlyOnDemand :
    ((⟨1, 0, 0⟩ : Cursor).bitCount = 0 ∧ [(0xC0 : Byte)].length ≤ 1) ∧
    ((⟨0, 0, 0⟩ : Cursor).bitCount = 0 ∧ [(0xC0 : Byte)][0]? = some 0xC0) ∧ (⟨0, 1, 0x80⟩ : Cursor).bitCount ≠ 0 := by
  decide

theorem witness_RawByteReadLeavesTagAlone :
    [(0x41 : Byte)].length ≤ (⟨1, 5, 0x40⟩ : Cursor).inPos ∧ [(0x41 : Byte)][(⟨0, 5, 0x40⟩ : Cursor).inPos]? = some 0x41 := by
  decide

/-- Three bits left in the tag and one byte: 11 bits can be read, 12 cannot. -/
theorem witness_FixedFieldTakesTheUpcomingBits :
    (⟨0, 3, 0xA0⟩ : Cursor).inPos ≤ [(0xFF : Byte)].length ∧ 11 ≤ (upcomingBits [0xFF] ⟨0, 3, 0xA0⟩).length ∧
    (upcomingBits [0xFF] ⟨0, 3, 0xA0⟩).length < 12 := by decide

theorem witness_GammaReadInvertsItsCode :
    (narrow.fitsNum 2 = true ∧ upcomingBits [0x3F] ⟨0, 0, 0⟩ = gammaCode 2 ++ [true, true, true, true, true, true]) ∧
    narrow.fitsNum 15 = true ∧ upcomingBits [0xF8] ⟨0, 0, 0⟩ = gammaCode 15 ++ [false, false] := by decide

theorem witness_GammaReadConsumesTheCodeOfItsResult :
    narrow.valid = true ∧ readGamma narrow [0b11111000] ⟨0, 0, 0⟩ = .done 15 ⟨1, 2, 0⟩ := by decide

/-- BR25: 16 is the least value that overflows NUM_BITS = 4. -/
theorem witness_GammaOverflowRaisesAtItsBit :
    narrow.numBits = some 4 ∧ 2 ≤ 4 ∧ 2 ^ 4 ≤ 16 ∧ upcomingBits [0b01010100] ⟨0, 0, 0⟩ = gammaCode 16 ++ [] := by decide

theorem witness_TruncatedOperationRunsOutOfInput :
    (Instr.blk 128 0 2).wf .reference = true ∧ (Instr.blk 128 0 2).selected false true = true ∧
    0 < (encode (.blk 128 0 2)).length ∧ 3 < (encode (.blk 128 0 2)).length := by decide

theorem witness_UnreadInputHasNoInfluence :
    (⟨0, 0, 0⟩ : Cursor).inPos ≤ [(0xC0 : Byte), 0x00, 0xFF].length ∧
    decode .reference false true [0xC0, 0x00, 0xFF] ⟨0, 0, 0⟩ = .instr (.endStream 0) ⟨2, 5, 0⟩ ∧
    [(0xC0 : Byte), 0x00].take 2 = [0xC0, 0x00, 0xFF].take 2 := by decide

theorem witness_PairChoosesTheFormOfBlock :
    (readGamma .reference [0x00, 0x02] ⟨0, 0, 0⟩ = .done 2 ⟨1, 6, 0⟩ ∧
      readGamma .reference [0x00, 0x02] ⟨1, 6, 0⟩ = .done 2 ⟨1, 4, 0⟩) ∧
    readByte [0x00, 0x02] ⟨1, 6, 0⟩ = .done 0x02 ⟨2, 6, 0⟩ ∧ ¬ ((2 : Nat) = 2 ∧ false = true) ∧
    readGamma .reference [0x00, 0x02] ⟨2, 6, 0⟩ = .done 2 ⟨2, 4, 0⟩ := by decide

/-! ## Witnesses: the step -/

theorem witness_StepRunsTheDecodedOperation :
    configured (running [0x41] true 0 [0xC0, 0x03]) = true ∧ (running [0x41] true 0 [0xC0, 0x03]).fsm = .running ∧
    decode .reference (decide ((running [0x41] true 0 [0xC0, 0x03]).fsm = .start)) true [0xC0, 0x03] ⟨0, 0, 0⟩
      = .instr (.shb 3) ⟨2, 5, 0⟩ ∧
    configured (started [0x2A]) = true ∧ (started [0x2A]).fsm = .start ∧
    decode .reference (decide ((started [0x2A]).fsm = .start)) false [0x2A] ⟨0, 0, 0⟩ = .instr (.first 0x2A) ⟨1, 0, 0⟩ := by
  decide

/-- FX4's step and FX14's step: the two faults of the reads. -/
theorem witness_ReadFaultEndsTheStepInFailed :
    configured (running [0x41] true 0 [0xA0]) = true ∧ (running [0x41] true 0 [0xA0]).fsm = .running ∧
    decode .reference (decide ((running [0x41] true 0 [0xA0]).fsm = .start)) true [0xA0] ⟨0, 0, 0⟩
      = .raised .unexpectedEndOfInput .block ⟨1, 4, 0⟩ ∧
    configured { running [0x41] true 0 [0x95, 0x00] with cfg := narrow } = true ∧
    decode narrow false true [0x95, 0x00] ⟨0, 0, 0⟩ = .raised .numberOverflow .block ⟨1, 0, 0⟩ ∧
    decodeFirst [] ⟨0, 0, 0⟩ = .raised .unexpectedEndOfInput .first ⟨0, 0, 0⟩ ∧
    decodeLiteral [0x00] ⟨1, 7, 0⟩ = .raised .unexpectedEndOfInput .lit ⟨1, 7, 0⟩ ∧
    decodeBlock .reference true [0xBF] ⟨1, 6, 0xFC⟩ = .raised .unexpectedEndOfInput .block ⟨1, 0, 0⟩ ∧
    decodeShort [0xC0] ⟨1, 5, 0⟩ = .raised .unexpectedEndOfInput .short ⟨1, 5, 0⟩ ∧
    decodeSingle [0x07] ⟨1, 0, 0⟩ = .raised .unexpectedEndOfInput .single ⟨1, 0, 0⟩ := by decide

theorem witness_NoStepOutsideASession :
    configured State.reset = true ∧ State.reset.fsm = .idle ∧ (State.reset.setFsm .terminated).fsm = .terminated ∧
    configured (State.reset.setFsm .terminated) = true ∧ (State.reset.setFsm .failed).fsm = .failed ∧
    configured (State.reset.setFsm .failed) = true := by decide

/-- Each broken constraint of R5, at its edge. -/
theorem witness_BrokenParametersAreRefused :
    { Config.reference with tagSize := 2 }.tagSize ≠ 1 ∧ { Config.reference with outCap := some 0 }.outCap = some 0 ∧
    ({ narrow with outCap := some 13 }.outCap = some 13 ∧ narrow.numBits = some 4 ∧ 2 ^ 4 - 1 < 13 + 3) ∧
    ({ narrow with outCap := none }.outCap = none ∧ { narrow with outCap := none }.numBits = some 4) ∧
    { Config.reference with inPosBits := some 1 }.inPosBits = some 1 ∧ 2 ^ 1 ≤ (started [0x2A, 0x00]).input.length := by
  decide

theorem witness_UnselectedFormIsRefused :
    configured (running [0x41] true 0 []) = true ∧ (Instr.sbCopy 0).wf (running [0x41] true 0 []).cfg = false ∧
    (configured State.reset = true ∧ State.reset.fsm ≠ .start ∧ State.reset.fsm ≠ .running) ∧
    (Instr.blk 2 1 2).selected (decide ((running [0x41] true 0 []).fsm = .start)) (running [0x41] true 0 []).pair = false := by
  decide

theorem witness_EverySessionStepCompletes :
    (Inv (started []) ∧ (started []).fsm = .start) ∧
    Inv (running [0x41] true 0 [0xA0]) ∧ (running [0x41] true 0 [0xA0]).fsm = .running :=
  ⟨⟨inv_started _, rfl⟩, inv_running _ _ _, rfl⟩

/-! ## Witnesses: results of the operations -/

theorem witness_FirstStepEmitsTheInitialLiteral :
    (configured (started [0x2A]) = true ∧ (started [0x2A]).fsm = .start ∧ Fresh (started [0x2A]) ∧
      (started [0x2A]).input = 0x2A :: []) ∧
    (configured (started []) = true ∧ (started []).fsm = .start ∧ Fresh (started []) ∧ (started []).input = []) ∧
    (running [0x41] true 0 []).fsm ≠ .start :=
  ⟨⟨rfl, rfl, ⟨rfl, rfl, rfl, rfl, rfl, rfl⟩, rfl⟩, ⟨rfl, rfl, ⟨rfl, rfl, rfl, rfl, rfl, rfl⟩, rfl⟩, by decide⟩

/-- Room for exactly one byte. -/
theorem room_last (s : State) (cap n : Nat) (h : s.outLen + n ≤ cap) :
    ∀ c, (capped cap s).cfg.outCap = some c → (capped cap s).outLen + n ≤ c := by
  intro c hc
  cases hc
  exact h

theorem witness_FirstAppendsItsByte :
    configured (capped 1 (started [0x2A])) = true ∧ (capped 1 (started [0x2A])).fsm = .start ∧
    ∀ c, (capped 1 (started [0x2A])).cfg.outCap = some c → (capped 1 (started [0x2A])).outLen < c :=
  ⟨rfl, rfl, room_last _ 1 1 (by decide)⟩

/-- DC6's room: OUT_CAP = 4 and three bytes. -/
theorem witness_LitAppendsItsByte :
    configured (capped 4 (running [1, 2, 3] true 0 [])) = true ∧ (capped 4 (running [1, 2, 3] true 0 [])).fsm = .running ∧
    ∀ c, (capped 4 (running [1, 2, 3] true 0 [])).cfg.outCap = some c → (capped 4 (running [1, 2, 3] true 0 [])).outLen < c :=
  ⟨rfl, rfl, room_last _ 4 1 (by decide)⟩

theorem witness_SbZeroAppendsZero :
    configured (capped 4 (running [1, 2, 3] false 1 [])) = true ∧ (capped 4 (running [1, 2, 3] false 1 [])).fsm = .running ∧
    ∀ c, (capped 4 (running [1, 2, 3] false 1 [])).cfg.outCap = some c →
      (capped 4 (running [1, 2, 3] false 1 [])).outLen < c :=
  ⟨rfl, rfl, room_last _ 4 1 (by decide)⟩

/-- DC15: the copy fills OUT to OUT_CAP. -/
theorem witness_BackCopyMeetsItsClosedForm :
    Written (capped 5 (running [0x10, 0x20, 0x30] false 0 [])) ∧ 1 ≤ 1 ∧
    3 ≤ (capped 5 (running [0x10, 0x20, 0x30] false 0 [])).outLen ∧
    ∀ c, (capped 5 (running [0x10, 0x20, 0x30] false 0 [])).cfg.outCap = some c →
      (capped 5 (running [0x10, 0x20, 0x30] false 0 [])).outLen + 2 ≤ c :=
  ⟨written_capped _ _ _ _ _, by decide, by decide, room_last _ 5 2 (by decide)⟩

/-- DC11, DC12 and DC14. -/
theorem witness_BackCopyChecksOffsetThenCapacity :
    (running [0x10, 0x20, 0x30] false 0 []).outLen < 4 ∧
    (1 ≤ 1 ∧ 1 ≤ (capped 5 (running [0x10, 0x20, 0x30] false 0 [])).outLen ∧
      (capped 5 (running [0x10, 0x20, 0x30] false 0 [])).cfg.outCap = some 5 ∧
      5 < (capped 5 (running [0x10, 0x20, 0x30] false 0 [])).outLen + 3) := by decide

theorem witness_BlkReuseCopiesAtTheLastOffset :
    configured (capped 5 (running [0x41, 0x42] true 2 [])) = true ∧ Written (capped 5 (running [0x41, 0x42] true 2 [])) ∧
    (capped 5 (running [0x41, 0x42] true 2 [])).fsm = .running ∧ (capped 5 (running [0x41, 0x42] true 2 [])).pair = true ∧
    2 ≤ 3 ∧ (capped 5 (running [0x41, 0x42] true 2 [])).cfg.fitsNum 3 = true ∧
    1 ≤ (capped 5 (running [0x41, 0x42] true 2 [])).lastOffset ∧
    (capped 5 (running [0x41, 0x42] true 2 [])).lastOffset ≤ (capped 5 (running [0x41, 0x42] true 2 [])).outLen ∧
    ∀ c, (capped 5 (running [0x41, 0x42] true 2 [])).cfg.outCap = some c →
      (capped 5 (running [0x41, 0x42] true 2 [])).outLen + 3 ≤ c :=
  ⟨rfl, written_capped _ _ _ _ _, rfl, rfl, by decide, rfl, by decide, by decide, room_last _ 5 3 (by decide)⟩

/-- The bands of the correction at their edges (OP9 to OP14), each with OUT long enough to hold the offset. -/
theorem witness_BlkCopiesAtItsOffset (g1 : Nat) (lo : Byte) (offset corr : Nat)
    (h : (g1, lo, offset, corr) ∈ [(3, (0x7F : Byte), 0x7F, 2), (3, 0x80, 0x80, 0), (7, 0xFF, 0x4FF, 0), (8, 0x00, 0x500, 1),
      (127, 0xFF, 0x7CFF, 1), (128, 0x00, 0x7D00, 2)]) :
    configured (running (List.replicate offset 0) true 0 []) = true ∧
    Written (running (List.replicate offset 0) true 0 []) ∧
    (running (List.replicate offset 0) true 0 []).fsm = .running ∧
    ¬ (g1 = 2 ∧ (running (List.replicate offset 0) true 0 []).pair = true) ∧
    2 ≤ g1 ∧ Config.reference.fitsNum g1 = true ∧
    offset = (g1 - 2 - if (running (List.replicate offset 0) true 0 []).pair then 1 else 0) * 256 + lo.toNat ∧
    2 + corr = 2 + (if offset < 0x80 then 2 else if offset < 0x500 then 0 else if offset < 0x7D00 then 1 else 2) ∧
    1 ≤ offset ∧ offset ≤ (running (List.replicate offset 0) true 0 []).outLen := by
  have hl : (running (List.replicate offset 0) true 0 []).outLen = offset := by simp [running]
  have hp : (running (List.replicate offset 0) true 0 []).pair = true := rfl
  rw [hl, hp]
  refine ⟨rfl, written_running _ _ _ _, rfl, ?_⟩
  clear hl hp
  simp only [List.mem_cons, Prod.mk.injEq, List.not_mem_nil, or_false] at h
  obtain ⟨rfl, rfl, rfl, rfl⟩ | ⟨rfl, rfl, rfl, rfl⟩ | ⟨rfl, rfl, rfl, rfl⟩ | ⟨rfl, rfl, rfl, rfl⟩ | ⟨rfl, rfl, rfl, rfl⟩ |
    ⟨rfl, rfl, rfl, rfl⟩ := h <;>
    exact ⟨by decide, by decide, rfl, by decide, by decide, by decide, by decide⟩

/-- OP22 and OP23: `S` = 2 with one byte, `S` = 0xFF with 127. -/
theorem witness_ShbCopiesAtItsOffset :
    (configured (running [0x41] true 0 []) = true ∧ Written (running [0x41] true 0 []) ∧ 2 ≤ (2 : Byte).toNat ∧
      (2 : Byte).toNat / 2 ≤ (running [0x41] true 0 []).outLen) ∧
    Written (running (List.replicate 127 0) true 0 []) ∧
    (0xFF : Byte).toNat / 2 ≤ (running (List.replicate 127 0) true 0 []).outLen :=
  ⟨⟨rfl, written_running _ _ _ _, by decide, by decide⟩, written_running _ _ _ _, by
    change _ ≤ (List.replicate 127 (0 : Byte)).length
    rw [List.length_replicate]
    decide⟩

/-- OP32: `D` = 15 with fifteen bytes. -/
theorem witness_SbCopyCopiesOneByte :
    configured (running (List.replicate 15 0) false 0 []) = true ∧ Written (running (List.replicate 15 0) false 0 []) ∧
    (running (List.replicate 15 0) false 0 []).fsm = .running ∧ (15 : BitVec 4) ≠ 0 ∧
    (15 : BitVec 4).toNat ≤ (running (List.replicate 15 0) false 0 []).outLen ∧
    ∀ c, (running (List.replicate 15 0) false 0 []).cfg.outCap = some c → 15 < c :=
  ⟨rfl, written_running _ _ _ _, rfl, by decide, by decide, by intro c h; cases h⟩

theorem witness_EndTerminatesTheSession :
    configured (running [0x41] true 7 []) = true ∧ (running [0x41] true 7 []).fsm = .running ∧
    (0 : Byte).toNat ≤ 1 ∧ (1 : Byte).toNat ≤ 1 := by decide

/-- One case a clause: OP6 (offset 0), OP17 (offset 0), and offset 2 with one byte of output (W6a, FX13). -/
theorem witness_BadOffsetEndsTheSessionInFailed :
    (selects (.blkReuse 2) (running [0x41] true 0 []) = true ∧ (running [0x41] true 0 []).lastOffset = 0) ∧
    (selects (.blk 3 0 2) (running [0x41] true 0 []) = true ∧ blockOffset 3 (running [0x41] true 0 []).pair 0 = 0) ∧
    (selects (.shb 4) (running [0x41] true 0 []) = true ∧ (running [0x41] true 0 []).outLen < (4 : Byte).toNat / 2) ∧
    selects (.sbCopy 2) (running [0x41] true 0 []) = true ∧ (running [0x41] true 0 []).outLen < (2 : BitVec 4).toNat := by
  decide

/-- One case a clause: OP4, OP7, FX12, OP25, OP34, and FIRST on a state that no run reaches. -/
theorem witness_FullOutputEndsTheSessionInFailed :
    (configured (capped 1 (running [0x41] true 0 [])) = true ∧ 1 ≤ (capped 1 (running [0x41] true 0 [])).outLen) ∧
    (selects (.blkReuse 3) (capped 4 (running [0x41, 0x42] true 2 [])) = true ∧
      4 < (capped 4 (running [0x41, 0x42] true 2 [])).outLen + 3) ∧
    (selects (.blk 3 1 3) (capped 4 (running [0x41] true 0 [])) = true ∧ blockOffset 3 true 1 = 1 ∧
      4 < (capped 4 (running [0x41] true 0 [])).outLen + blockLength 1 3) ∧
    (selects (.shb 3) (capped 3 (running [0x41] true 0 [])) = true ∧
      3 < (capped 3 (running [0x41] true 0 [])).outLen + (2 + (3 : Byte).toNat % 2)) ∧
    (selects (.sbCopy 2) (capped 2 (running [0x10, 0x20] true 0 [])) = true ∧
      2 ≤ (capped 2 (running [0x10, 0x20] true 0 [])).outLen) ∧
    (capped 1 { running [0x41] true 0 [] with fsm := .start }).fsm = .start := by decide

theorem witness_CopyOperandsAreAssembledByTheTables :
    2 + false.toNat ≤ 2 ∧ 2 + true.toNat ≤ 3 ∧ 2 ≤ (2 : Byte).toNat ∧ 2 ≤ (0xFF : Byte).toNat ∧
    (0x7F < 0x80 ∧ (0x80 ≤ 0x80 ∧ 0x4FF < 0x500) ∧ (0x500 ≤ 0x500 ∧ 0x7CFF < 0x7D00) ∧ 0x7D00 ≤ 0x7D00) := by decide

/-- NUM_BITS = 4: OFF_BITS = 12, LEN_BITS = 5, and the largest operands. -/
theorem witness_OffsetsAndLengthsFitTheirWidths :
    narrow.valid = true ∧ narrow.offBits = some 12 ∧ narrow.lenBits = some 5 ∧ (Instr.blk 15 0xFF 15).wf narrow = true ∧
    (Instr.blkReuse 15).wf narrow = true := by decide

/-! ## Witnesses: frames and rules of the whole machine -/

/-- Each operation from a state where it completes; the hypotheses of the frames and of the rules about completed steps. -/
theorem witness_OperationsLeaveTheStreamAlone :
    (∃ t, exec (.first 0x2A) (started []) = .next t ∧ t.fsm = .running) ∧
    (∃ t, exec (.lit 0x42) (running [0x41] true 0 []) = .next t ∧ t.fsm = .running) ∧
    (∃ t, exec (.blkReuse 3) (running [0x41] true 1 []) = .next t ∧ t.fsm = .running) ∧
    (∃ t, exec (.blk 3 1 2) (running [0x41] true 0 []) = .next t ∧ t.fsm = .running) ∧
    (∃ t, exec (.shb 3) (running [0x41] true 0 []) = .next t ∧ t.fsm = .running) ∧
    (∃ t, exec (.endStream 1) (running [0x41] true 0 []) = .next t ∧ t.fsm = .terminated) ∧
    (∃ t, exec .sbZero (running [0x41] true 0 []) = .next t ∧ t.fsm = .running) ∧
    ∃ t, exec (.sbCopy 1) (running [0x41] true 0 []) = .next t ∧ t.fsm = .running :=
  ⟨next_of (by decide), next_of (by decide), next_of (by decide), next_of (by decide), next_of (by decide), next_of (by decide), next_of (by decide), next_of (by decide)⟩

/-- A completed and a failed append. -/
theorem witness_AppendingOperationsFrame :
    (∃ t, exec (.lit 0x42) (running [0x41] true 0 []) = .next t ∧ t.fsm = .running) ∧
    ∃ t, exec (.lit 0x42) (capped 1 (running [0x41] true 0 [])) = .next t ∧ t.fsm = .failed :=
  ⟨next_of (by decide), next_of (by decide)⟩

/-- A completed and a failed copy of each kind, with the length its meaning computes. -/
theorem witness_CopyingOperationsFrame :
    ((∃ t, exec (.blkReuse 3) (running [0x41] true 1 []) = .next t ∧ t.fsm = .running) ∧
      ∃ t, exec (.blkReuse 3) (running [0x41] true 0 []) = .next t ∧ t.fsm = .failed) ∧
    (4 = blockLength (blockOffset 3 (running [0x41] true 0 []).pair 1) 2 ∧
      (∃ t, exec (.blk 3 1 2) (running [0x41] true 0 []) = .next t ∧ t.fsm = .running) ∧
      ∃ t, exec (.blk 3 5 2) (running [0x41] true 0 []) = .next t ∧ t.fsm = .failed) ∧
    (3 = shortLength 3 ∧ (∃ t, exec (.shb 3) (running [0x41] true 0 []) = .next t ∧ t.fsm = .running) ∧
      ∃ t, exec (.shb 4) (running [0x41] true 0 []) = .next t ∧ t.fsm = .failed) ∧
    (∃ t, exec (.sbCopy 1) (running [0x41] true 0 []) = .next t ∧ t.fsm = .running) ∧
    ∃ t, exec (.sbCopy 2) (running [0x41] true 0 []) = .next t ∧ t.fsm = .failed :=
  ⟨⟨next_of (by decide), next_of (by decide)⟩, ⟨by decide, next_of (by decide), next_of (by decide)⟩,
    ⟨by decide, next_of (by decide), next_of (by decide)⟩, next_of (by decide), next_of (by decide)⟩

theorem witness_OutIsAppendOnly : ∃ t, step (running [0x41] true 0 [0xC0, 0x03]) = .next t ∧ t.outLen = 4 :=
  next_of (by decide)

theorem witness_FailedStepLeavesTheOutputAlone :
    (∃ t, step (running [0x41] true 0 [0xA0, 0x05]) = .next t ∧ t.fsm = .failed) ∧
    ∃ t, step (running [0x41] true 0 [0xA0]) = .next t ∧ t.fsm = .failed :=
  ⟨next_of (by decide), next_of (by decide)⟩

/-- A completed step of each operation. -/
theorem witness_PairFollowsItsTable :
    (fetch (started [0x2A]) = .instr (.first 0x2A) ⟨1, 0, 0⟩ ∧ ∃ t, step (started [0x2A]) = .next t ∧ t.fsm = .running) ∧
    (fetch (running [0x41] false 0 [0x52, 0x42]) = .instr (.lit 0x42) ⟨2, 7, 0xA4⟩ ∧
      ∃ t, step (running [0x41] false 0 [0x52, 0x42]) = .next t ∧ t.fsm = .running) ∧
    (fetch (running [0x41] true 1 [0x88]) = .instr (.blkReuse 3) ⟨1, 2, 0⟩ ∧
      ∃ t, step (running [0x41] true 1 [0x88]) = .next t ∧ t.fsm = .running) ∧
    (fetch (running [0x41] true 0 [0xA0, 0x01]) = .instr (.blk 3 1 2) ⟨2, 2, 0⟩ ∧
      ∃ t, step (running [0x41] true 0 [0xA0, 0x01]) = .next t ∧ t.fsm = .running) ∧
    (fetch (running [0x41] true 0 [0xC0, 0x03]) = .instr (.shb 3) ⟨2, 5, 0⟩ ∧
      ∃ t, step (running [0x41] true 0 [0xC0, 0x03]) = .next t ∧ t.fsm = .running) ∧
    (fetch (running [0x41] false 0 [0xC0, 0x01]) = .instr (.endStream 1) ⟨2, 5, 0⟩ ∧
      ∃ t, step (running [0x41] false 0 [0xC0, 0x01]) = .next t ∧ t.fsm = .terminated) ∧
    (fetch (running [0x41] false 0 [0xE0]) = .instr .sbZero ⟨1, 1, 0⟩ ∧
      ∃ t, step (running [0x41] false 0 [0xE0]) = .next t ∧ t.fsm = .running) ∧
    fetch (running [0x41] false 0 [0xE2]) = .instr (.sbCopy 1) ⟨1, 1, 0⟩ ∧
      ∃ t, step (running [0x41] false 0 [0xE2]) = .next t ∧ t.fsm = .running :=
  ⟨⟨by decide, next_of (by decide)⟩, ⟨by decide, next_of (by decide)⟩, ⟨by decide, next_of (by decide)⟩,
    ⟨by decide, next_of (by decide)⟩, ⟨by decide, next_of (by decide)⟩, ⟨by decide, next_of (by decide)⟩,
    ⟨by decide, next_of (by decide)⟩, by decide, next_of (by decide)⟩

/-- A step that changes `last_offset` by a completed block. -/
theorem witness_LastOffsetIsWrittenByBlocksOnly :
    fetch (running [0x41] true 0 [0xC0, 0x03]) = .instr (.shb 3) ⟨2, 5, 0⟩ ∧
    (running [0x41] true 0 [0xC0, 0x03]).lastOffset = 0 ∧
    ∃ t, step (running [0x41] true 0 [0xC0, 0x03]) = .next t ∧ (t.lastOffset, t.fsm) = (1, .running) :=
  ⟨by decide, rfl, next_of (f := fun t => (t.lastOffset, t.fsm)) (by decide)⟩

/-- Each move, and both kinds of write. -/
theorem witness_SessionStatesMoveByTheTable :
    (∃ t, move .step (started [0x2A]) = .next t ∧ t.fsm = .running) ∧
    (∃ t, move .step (running [0x41] true 0 [0xC0, 0x00]) = .next t ∧ t.fsm = .terminated) ∧
    (∃ t, move .reset (running [0x41] true 0 []) = .next t ∧ t.fsm = .idle) ∧
    (∃ t, move (.write 0 1 [0x2A]) State.reset = .next t ∧ t.fsm = .start) ∧
    (∃ t, move (.write 0 2 []) (started []) = .next t ∧ t.fsm = .start) ∧
    (∃ t, move (.readRegister 2) (started []) = .next t ∧ t.fsm = .start) ∧
    ∃ t, move (.readOut 0) (started []) = .next t ∧ t.fsm = .start :=
  ⟨next_of (by decide), next_of (by decide), next_of (by decide), next_of (by decide), next_of (by decide),
    next_of (by decide), next_of (by decide)⟩

/-- A step that goes on and one that ends the session. -/
theorem witness_RunningStepConsumesInputOrEnds :
    (∃ t, step (running [0x41] true 0 [0xC0, 0x03]) = .next t ∧ t.fsm = .running) ∧
    ∃ t, step (running [0x41] true 0 []) = .next t ∧ t.fsm = .failed := ⟨next_of (by decide), next_of (by decide)⟩

theorem witness_SessionEndsWithinItsBound :
    (Inv (started []) ∧ (started []).fsm = .start) ∧
    Inv (started [0x2A, 0xC0, 0x00]) ∧ (started [0x2A, 0xC0, 0x00]).fsm = .start :=
  ⟨⟨inv_started _, rfl⟩, inv_started _, rfl⟩

/-- Two states that differ in the draws, the trace port and a stale byte of OUT. -/
theorem witness_StepReadsOnlyTheSession :
    SameSession (running [0x41] true 0 [0x00, 0x42])
      { running [0x41] true 0 [0x00, 0x42] with
        draws := 5, out := [(0, 0x41), (7, 0x99)], cfg := { Config.reference with traceEn := true } } ∧
    configured (running [0x41] true 0 [0x00, 0x42]) = true := by
  refine ⟨⟨rfl, rfl, rfl, rfl, rfl, rfl, rfl, rfl, rfl, ?_, rfl, rfl, rfl, rfl⟩, rfl⟩
  intro a ha
  obtain rfl : a = 0 := by
    change a < 1 at ha
    omega
  rfl

/-- RS3: a start from reset and a start after a failed session. -/
theorem witness_SessionsOnOneInputAgree :
    (∃ t, startMove [0x2A, 0xC0, 0x00] State.reset = .next t) ∧
    ∃ t, startMove [0x2A, 0xC0, 0x00] ((running [0x41] true 9 [0x00]).raise .unexpectedEndOfInput .lit 0) = .next t :=
  ⟨⟨_, rfl⟩, ⟨_, rfl⟩⟩

/-- W3's stream, at OUT_CAP = 6, exactly its output. -/
theorem witness_SessionDecodesAssembledStream :
    streamOk .reference true false ([.first 0x41, .blk 3 1 3] ++ [.endStream 0]) = true ∧
    (∀ i ∈ [Instr.first 0x41, .blk 3 1 3], ∀ x, i ≠ .endStream x) ∧
    refRun .fresh ([.first 0x41, .blk 3 1 3] ++ [.endStream 0])
      = some { out := [0x41, 0x41, 0x41, 0x41, 0x41, 0x41], pair := false, lastOffset := 1 } ∧
    ∃ t, startMove (assemble ([.first 0x41, .blk 3 1 3] ++ [.endStream 0]) ++ [0xFF]) (capped 6 State.reset) = .next t := by
  refine ⟨by decide, ?_, by decide, ⟨_, rfl⟩⟩
  intro i hi x
  simp only [List.mem_cons, List.not_mem_nil, or_false] at hi
  obtain rfl | rfl := hi <;> simp

/-! ## Witnesses: the invariant and the host -/

theorem witness_InvariantHoldsAtReset : Config.reference.valid = true ∧ narrow.valid = true := by decide

theorem witness_StepKeepsTheInvariant :
    (Inv (started [0x2A]) ∧ ∃ t, step (started [0x2A]) = .next t ∧ t.fsm = .running) ∧
    Inv (running [0x41] true 0 [0xA0, 0x05]) ∧
    ∃ t, step (running [0x41] true 0 [0xA0, 0x05]) = .next t ∧ t.fsm = .failed :=
  ⟨⟨inv_started _, next_of (by decide)⟩, inv_running _ _ _, next_of (by decide)⟩

theorem witness_HostMovesKeepTheInvariant :
    (∃ t, Move.reset ≠ .step ∧ Inv (running [0x41] true 0 []) ∧ move .reset (running [0x41] true 0 []) = .next t) ∧
    ∃ t, Inv (started []) ∧ move (.readOut 0) (started []) = .next t :=
  ⟨⟨_, by decide, inv_running _ _ _, rfl⟩, ⟨_, inv_started _, rfl⟩⟩

/-- A state reached by the start command and the first step. -/
theorem witness_ReachableStatesMeetTheInvariant :
    Config.reference.valid = true ∧ ∃ s, Reachable .reference s ∧ s.fsm = .running :=
  ⟨rfl, _, .move _ _ .step (.move _ _ (.write 0 1 [0x2A]) .reset rfl) rfl, rfl⟩

theorem witness_StartBeginsAFreshSession :
    State.reset.cfg.valid = true ∧ State.reset.cfg.admitsInput [(0x2A : Byte)].length = true ∧ 1 % 2 = 1 ∧ 3 % 2 = 1 ∧
    State.reset.fsm = .idle ∧ (running [] true 0 []).fsm = .running ∧
    next? (writeRegister 0 3 [0x2A] State.reset) = some (started [0x2A]) := by decide

theorem witness_ControlRegisterOnlyStarts : 3 % 2 = 1 ∧ 2 % 2 = 0 ∧ 1 ≠ 0 := by decide

theorem witness_StatusRegistersAreExactOutsideASession :
    State.reset.fsm ≠ .start ∧ State.reset.fsm ≠ .running := by decide

/-- The last byte of the output, and the index after it. -/
theorem witness_OutPortIsExactInTerminated :
    ((running [0x41] true 0 []).setFsm .terminated).fsm = .terminated ∧
    0 < ((running [0x41] true 0 []).setFsm .terminated).outLen ∧
    ((running [0x41] true 0 []).setFsm .terminated).out.read 0 = some 0x41 ∧
    ((running [0x41] true 0 []).setFsm .terminated).outLen ≤ 1 ∧ (running [0x41] true 0 []).fsm ≠ .terminated := by decide

/-- The same state with the trace port. -/
def traced (s : State) : State := { s with cfg := { s.cfg with traceEn := true } }

/-- A completed step of each form (vectors W4, OP3, OP5, OP8, OP21, OP27, OP29, OP31), and a failed one. -/
theorem witness_TraceRecordsEachStep :
    State.reset.cfg.traceEn = false ∧
    (∀ x ∈ [(traced (started [0x2A]), Instr.first 0x2A, (⟨1, 0, 0⟩ : Cursor)),
        (traced (running [0x41] true 0 [0x52, 0x42]), .lit 0x42, ⟨2, 7, 0xA4⟩),
        (traced (running [0x41] true 1 [0x88]), .blkReuse 3, ⟨1, 2, 0⟩),
        (traced (running [0x41, 0x42] true 0 [0xA4, 0x02]), .blk 3 0x02 4, ⟨2, 0, 0⟩),
        (traced (running [0x41] true 0 [0xC0, 0x03]), .shb 0x03, ⟨2, 5, 0⟩),
        (traced (running [0x41] true 0 [0xC0, 0x01]), .endStream 0x01, ⟨2, 5, 0⟩),
        (traced (running [0x41] true 0 [0xE0]), .sbZero, ⟨1, 1, 0⟩),
        (traced (running [0x41] true 0 [0xE2]), .sbCopy 1, ⟨1, 1, 0⟩)],
      x.1.cfg.traceEn = true ∧ fetch x.1 = .instr x.2.1 x.2.2 ∧
        ∃ t, step x.1 = .next t ∧ decide (t.fsm = .failed) = false) ∧
    ∃ t, step (traced (running [0x41] true 0 [0xF0])) = .next t ∧ t.fsm = .failed := by
  refine ⟨rfl, ?_, next_of (by decide)⟩
  simp only [List.forall_mem_cons]
  exact ⟨⟨rfl, by decide, next_of (by decide)⟩, ⟨rfl, by decide, next_of (by decide)⟩,
    ⟨rfl, by decide, next_of (by decide)⟩, ⟨rfl, by decide, next_of (by decide)⟩,
    ⟨rfl, by decide, next_of (by decide)⟩, ⟨rfl, by decide, next_of (by decide)⟩,
    ⟨rfl, by decide, next_of (by decide)⟩, ⟨rfl, by decide, next_of (by decide)⟩, by simp⟩

end Sys2Proof.Tests
end

/-! # Proofs of the scope family (00_scope.md)

The layer the four statements share: the parameter constraints of R5 as propositions, the decoder on a stream the
encoder packed, the frame of the meanings over the stream, and the simulation of the source's reference decoder. -/

namespace Sys2Proof

/-! ## The parameters -/

theorem Config.fitsNum_iff (cfg : Config) (v : Nat) :
    cfg.fitsNum v = true ↔ ∀ n, cfg.numBits = some n → v < 2 ^ n := by
  unfold Config.fitsNum
  cases cfg.numBits <;> simp

theorem gammaOk_iff (cfg : Config) (v : Nat) : gammaOk cfg v = true ↔ 2 ≤ v ∧ cfg.fitsNum v = true := by
  simp [gammaOk]

/-- The constraints of R5, with assumption 2 in the last clause: a bounded NUM_BITS has a bounded OUT_CAP beside it. -/
theorem Config.valid_iff (cfg : Config) :
    cfg.valid = true ↔ cfg.tagSize = 1 ∧ (∀ cap, cfg.outCap = some cap → 1 ≤ cap) ∧
      ∀ n, cfg.numBits = some n → ∃ cap, cfg.outCap = some cap ∧ cap + 3 ≤ 2 ^ n - 1 := by
  unfold Config.valid Config.tagOk Config.boundsOk
  cases cfg.outCap <;> cases cfg.numBits <;> simp

theorem Config.admitsInput_iff (cfg : Config) (n : Nat) :
    cfg.admitsInput n = true ↔ ∀ w, cfg.inPosBits = some w → n < 2 ^ w := by
  unfold Config.admitsInput
  cases cfg.inPosBits <;> simp

/-! ## Decoding what the encoder packed -/

section Packed

variable {input tail : List Byte} {is : List Item}

/-- A unary bit that is set: the loop of R59 counts it and goes on. -/
theorem unaryLoop_ahead_set {c : Cursor} (left count : Nat) (h : Ahead input tail c (.bit true :: is)) :
    ∃ c', unaryLoop input true (left + 1) count c = unaryLoop input true left (count + 1) c' ∧
      Ahead input tail c' is := by
  obtain ⟨c', hr, ha⟩ := readBit_ahead h
  exact ⟨c', by simp [unaryLoop, hr], ha⟩

/-- A unary bit that is clear ends the loop of R59. -/
theorem unaryLoop_ahead_clear {c : Cursor} (left count : Nat) (h : Ahead input tail c (.bit false :: is)) :
    ∃ c', unaryLoop input true (left + 1) count c = .done count c' ∧ Ahead input tail c' is := by
  obtain ⟨c', hr, ha⟩ := readBit_ahead h
  exact ⟨c', by simp [unaryLoop, hr], ha⟩

/-- The code of an opcode is read back as a count that selects it (R48, R63). -/
theorem readUnary_ahead (o : Opcode) {c : Cursor} (h : Ahead input tail c (o.code.map .bit ++ is)) :
    ∃ n c', readUnary input 3 true c = .done n c' ∧ Opcode.ofCount n = o ∧ Ahead input tail c' is := by
  unfold readUnary
  cases o with
  | literal =>
    obtain ⟨c1, e1, h1⟩ := unaryLoop_ahead_clear 2 0 h
    exact ⟨0, c1, e1, rfl, h1⟩
  | block =>
    obtain ⟨c1, e1, h1⟩ := unaryLoop_ahead_set 2 0 h
    obtain ⟨c2, e2, h2⟩ := unaryLoop_ahead_clear 1 1 h1
    exact ⟨1, c2, e1.trans e2, rfl, h2⟩
  | shortBlock =>
    obtain ⟨c1, e1, h1⟩ := unaryLoop_ahead_set 2 0 h
    obtain ⟨c2, e2, h2⟩ := unaryLoop_ahead_set 1 1 h1
    obtain ⟨c3, e3, h3⟩ := unaryLoop_ahead_clear 0 2 h2
    exact ⟨2, c3, e1.trans (e2.trans e3), rfl, h3⟩
  | singleByte =>
    obtain ⟨c1, e1, h1⟩ := unaryLoop_ahead_set 2 0 h
    obtain ⟨c2, e2, h2⟩ := unaryLoop_ahead_set 1 1 h1
    obtain ⟨c3, e3, h3⟩ := unaryLoop_ahead_set 0 2 h2
    exact ⟨3, c3, e1.trans (e2.trans e3), rfl, h3⟩

/-- The reads of one opcode after its unary code. -/
def decodeOperands (cfg : Config) (pair : Bool) (input : List Byte) (o : Opcode) (c : Cursor) : Decoded :=
  match o with
  | .literal => decodeLiteral input c
  | .block => decodeBlock cfg pair input c
  | .shortBlock => decodeShort input c
  | .singleByte => decodeSingle input c

/-- After its unary code, an opcode is decoded by its own reads. -/
theorem decode_ahead_opcode (cfg : Config) (pair : Bool) (o : Opcode) {c : Cursor}
    (h : Ahead input tail c (o.code.map .bit ++ is)) :
    ∃ c', decode cfg false pair input c = decodeOperands cfg pair input o c' ∧ Ahead input tail c' is := by
  obtain ⟨n, c', hr, ho, ha⟩ := readUnary_ahead o h
  exact ⟨c', by cases o <;> simp [decode, decodeOpcode, hr, ho, decodeOperands], ha⟩

/-- A field of bits is read back as its value above the accumulator (R58). -/
theorem readFixed_ahead (bs : List Bool) (acc : Nat) {c : Cursor} (h : Ahead input tail c (bs.map .bit ++ is)) :
    ∃ c', readFixed input bs.length acc c = .done (acc * 2 ^ bs.length + bitsVal bs.length bs) c' ∧
      Ahead input tail c' is := by
  induction bs generalizing acc c with
  | nil => exact ⟨c, by simp [readFixed], h⟩
  | cons b bs ih =>
    obtain ⟨c1, hr, h1⟩ := readBit_ahead h
    obtain ⟨c2, e, h2⟩ := ih (acc * 2 + b.toNat) h1
    refine ⟨c2, ?_, h2⟩
    simp only [List.length_cons, readFixed, hr, Read.bind_done, e, bitsVal]
    congr 1
    ring

theorem bitsVal_bits4 : ∀ d : BitVec 4, bitsVal 4 (bits4 d) = d.toNat := by decide

/-- The field `D` is read back as its number (R49, R58). -/
theorem readFixed_bits4_ahead (d : BitVec 4) {c : Cursor} (h : Ahead input tail c ((bits4 d).map .bit ++ is)) :
    ∃ c', readFixed input 4 0 c = .done d.toNat c' ∧ Ahead input tail c' is := by
  obtain ⟨c', e, ha⟩ := readFixed_ahead (bits4 d) 0 h
  refine ⟨c', ?_, ha⟩
  rw [Nat.zero_mul, Nat.zero_add] at e
  rw [← bitsVal_bits4]
  exact e

/-- The pairs of data bit and continuation bit of a gamma code for the bits of `v` below bit `k` (R50). -/
def gammaPairs (v k : Nat) : List Bool := (List.range k).reverse.flatMap fun j => [v.testBit j, j != 0]

theorem gammaCode_eq_pairs (v : Nat) : gammaCode v = gammaPairs v (Nat.log2 v) := rfl

theorem gammaPairs_succ (v k : Nat) : gammaPairs v (k + 1) = v.testBit k :: (k != 0) :: gammaPairs v k := by
  simp [gammaPairs, List.range_succ]

/-- Folding bit `k` of `v` below the bits above it gives the bits from `k` up. -/
theorem shift_fold_testBit (v k : Nat) : v / 2 ^ (k + 1) * 2 + (v.testBit k).toNat = v / 2 ^ k := by
  rw [Nat.toNat_testBit, Nat.pow_succ, ← Nat.div_div_eq_div_mul]
  omega

/-- The leading bits of a number that fits in NUM_BITS bits pass the overflow check of R57 while a bit is still to
come. -/
theorem gammaFull_shift {cfg : Config} {v : Nat} (k : Nat) (hf : cfg.fitsNum v = true) (hv : v ≠ 0) :
    gammaFull cfg (v / 2 ^ (k + 1)) = false := by
  unfold gammaFull
  cases hn : cfg.numBits with
  | none => rfl
  | some n =>
    have hlt : v < 2 ^ n := (cfg.fitsNum_iff v).1 hf n hn
    cases n with
    | zero => exact absurd hlt (by simpa using hv)
    | succ n =>
      have hle : v / 2 ^ (k + 1) ≤ v / 2 := Nat.div_le_div_left (Nat.le_self_pow (by omega) 2) (by omega)
      rw [Nat.pow_succ] at hlt
      simp only [Nat.add_sub_cancel, decide_eq_false_iff_not]
      omega

/-- The gamma loop that stands before the continuation bit of bit `k`, its accumulator the bits of `v` from `k` up,
returns `v` (R57). -/
theorem gammaLoop_ahead {cfg : Config} {v : Nat} (hf : cfg.fitsNum v = true) (hv : v ≠ 0) (k : Nat) {c : Cursor}
    (h : Ahead input tail c (((k != 0) :: gammaPairs v k).map .bit ++ is)) :
    ∃ c', gammaLoop cfg input (bitsLeft input c) (v / 2 ^ k) c = .done v c' ∧ Ahead input tail c' is := by
  induction k generalizing c with
  | zero =>
    obtain ⟨c1, hr, h1⟩ := readBit_ahead h
    exact ⟨c1, by rw [gammaLoop_unfold, hr]; simp, h1⟩
  | succ k ih =>
    rw [gammaPairs_succ] at h
    obtain ⟨c1, hr, h1⟩ := readBit_ahead h
    obtain ⟨c2, hd, h2⟩ := readBit_ahead h1
    obtain ⟨c3, e, h3⟩ := ih h2
    refine ⟨c3, ?_, h3⟩
    rw [gammaLoop_unfold, hr]
    simp [gammaFull_shift k hf hv, hd, shift_fold_testBit, e]

/-- The code of `v` is read back as `v` (R50, R57, R60). -/
theorem readGamma_ahead {cfg : Config} {v : Nat} (hok : gammaOk cfg v = true) {c : Cursor}
    (h : Ahead input tail c ((gammaCode v).map .bit ++ is)) :
    ∃ c', readGamma cfg input c = .done v c' ∧ Ahead input tail c' is := by
  obtain ⟨hv, hf⟩ := (gammaOk_iff cfg v).1 hok
  obtain ⟨m, hm⟩ : ∃ m, Nat.log2 v = m + 1 :=
    Nat.exists_eq_add_one.2 ((Nat.le_log2 (by omega)).2 (by simpa using hv))
  have htop : v / 2 ^ (m + 1) = 1 :=
    Nat.div_eq_of_lt_le (by simpa [hm] using Nat.log2_self_le (n := v) (by omega))
      (by simpa [hm, Nat.pow_succ, Nat.mul_comm] using Nat.lt_log2_self (n := v))
  rw [gammaCode_eq_pairs, hm, gammaPairs_succ] at h
  obtain ⟨c1, hd, h1⟩ := readBit_ahead h
  obtain ⟨c2, e, h2⟩ := gammaLoop_ahead hf (by omega) m h1
  refine ⟨c2, ?_, h2⟩
  rw [readGamma, hd, Read.bind_done, ← htop, shift_fold_testBit, e]

end Packed

/-- An operation whose items lie ahead is the one decoded, and the items after it lie ahead of the cursor it leaves
(R47, R49, R54). -/
theorem decode_ahead {cfg : Config} {i : Instr} {isFirst pair : Bool} {input tail : List Byte} {c : Cursor}
    {is : List Item} (hw : i.wf cfg = true) (hs : i.selected isFirst pair = true)
    (h : Ahead input tail c (items i ++ is)) :
    ∃ c', decode cfg isFirst pair input c = .instr i c' ∧ Ahead input tail c' is := by
  cases i with
  | first l =>
    obtain rfl : isFirst = true := hs
    obtain ⟨c1, e, h1⟩ := readByte_ahead h
    exact ⟨c1, by simp [decode, decodeFirst, e], h1⟩
  | lit l =>
    obtain rfl : isFirst = false := by simpa [Instr.selected] using hs
    rw [items, List.append_assoc] at h
    obtain ⟨c1, e1, h1⟩ := decode_ahead_opcode cfg pair .literal h
    obtain ⟨c2, e2, h2⟩ := readByte_ahead h1
    exact ⟨c2, by simp [e1, decodeOperands, decodeLiteral, e2], h2⟩
  | blkReuse g2 =>
    obtain ⟨rfl, rfl⟩ : isFirst = false ∧ pair = true := by simpa [Instr.selected] using hs
    have hok : gammaOk cfg g2 = true := hw
    have hok2 : gammaOk cfg 2 = true := by
      rw [gammaOk_iff, Config.fitsNum_iff] at hok ⊢
      exact ⟨le_rfl, fun n hn => hok.1.trans_lt (hok.2 n hn)⟩
    simp only [items, List.map_append, List.append_assoc] at h
    obtain ⟨c1, e1, h1⟩ := decode_ahead_opcode cfg true .block h
    obtain ⟨c2, e2, h2⟩ := readGamma_ahead hok2 h1
    obtain ⟨c3, e3, h3⟩ := readGamma_ahead hok h2
    exact ⟨c3, by simp [e1, decodeOperands, decodeBlock, e2, e3], h3⟩
  | blk g1 lo g2 =>
    obtain ⟨rfl, hform⟩ : isFirst = false ∧ ¬ (g1 = 2 ∧ pair = true) := by
      simpa [Instr.selected, imp_iff_not_or] using hs
    obtain ⟨hok1, hok2⟩ : gammaOk cfg g1 = true ∧ gammaOk cfg g2 = true := by simpa [Instr.wf] using hw
    simp only [items, List.map_append, List.append_assoc] at h
    obtain ⟨c1, e1, h1⟩ := decode_ahead_opcode cfg pair .block h
    obtain ⟨c2, e2, h2⟩ := readGamma_ahead hok1 h1
    obtain ⟨c3, e3, h3⟩ := readByte_ahead h2
    obtain ⟨c4, e4, h4⟩ := readGamma_ahead hok2 h3
    exact ⟨c4, by simp only [e1, decodeOperands, decodeBlock, e2, e3, e4, hform, Read.under_done, if_false], h4⟩
  | shb sv =>
    obtain rfl : isFirst = false := by simpa [Instr.selected] using hs
    have hsv : ¬ sv.toNat ≤ 1 := Nat.not_le.2 (by simpa [Instr.wf] using hw : 2 ≤ sv.toNat)
    rw [items, List.append_assoc] at h
    obtain ⟨c1, e1, h1⟩ := decode_ahead_opcode cfg pair .shortBlock h
    obtain ⟨c2, e2, h2⟩ := readByte_ahead h1
    exact ⟨c2, by simp [e1, decodeOperands, decodeShort, e2, hsv], h2⟩
  | endStream sv =>
    obtain rfl : isFirst = false := by simpa [Instr.selected] using hs
    have hsv : sv.toNat ≤ 1 := by simpa [Instr.wf] using hw
    rw [items, List.append_assoc] at h
    obtain ⟨c1, e1, h1⟩ := decode_ahead_opcode cfg pair .shortBlock h
    obtain ⟨c2, e2, h2⟩ := readByte_ahead h1
    exact ⟨c2, by simp [e1, decodeOperands, decodeShort, e2, hsv], h2⟩
  | sbZero =>
    obtain rfl : isFirst = false := by simpa [Instr.selected] using hs
    simp only [items, List.map_append, List.append_assoc] at h
    obtain ⟨c1, e1, h1⟩ := decode_ahead_opcode cfg pair .singleByte h
    obtain ⟨c2, e2, h2⟩ := readFixed_bits4_ahead 0 h1
    exact ⟨c2, by simp [e1, decodeOperands, decodeSingle, e2], h2⟩
  | sbCopy d =>
    obtain rfl : isFirst = false := by simpa [Instr.selected] using hs
    have hd : d.toNat ≠ 0 := fun h0 => (by simpa [Instr.wf] using hw : d ≠ 0) (BitVec.eq_of_toNat_eq h0)
    simp only [items, List.map_append, List.append_assoc] at h
    obtain ⟨c1, e1, h1⟩ := decode_ahead_opcode cfg pair .singleByte h
    obtain ⟨c2, e2, h2⟩ := readFixed_bits4_ahead d h1
    exact ⟨c2, by simp [e1, decodeOperands, decodeSingle, e2, hd], h2⟩

/-- An assembled stream lies ahead of the session-start cursor, whatever follows it. -/
theorem ahead_assemble (ops : List Instr) (tail : List Byte) :
    Ahead (assemble ops ++ tail) tail ⟨0, 0, 0⟩ (ops.flatMap items) :=
  ⟨rfl, by simp [assemble], rfl⟩

/-- Where no item is left, only the bytes after the stream are. -/
theorem inPos_of_ahead_nil {input tail : List Byte} {c : Cursor} (h : Ahead input tail c []) :
    c.inPos + tail.length = input.length := h.2.1

end Sys2Proof

namespace Sys2Proof.Machine

/-! ## The parameters of a state -/

theorem configured_iff (s : State) :
    configured s = true ↔ s.cfg.valid = true ∧ s.cfg.admitsInput s.input.length = true := by
  simp [configured]

/-- Settles O19: each disjunct denies one clause of `Config.valid_iff` or `Config.admitsInput_iff`, so the state is not
configured, and the step and every operation ask for that first. -/
theorem brokenParametersAreRefused : Obligations.BrokenParametersAreRefused := by
  intro s hbroken
  have hc : configured s = false := by
    rw [Bool.eq_false_iff, ne_eq, configured_iff, Config.valid_iff, Config.admitsInput_iff]
    rintro ⟨⟨htag, hcap, hnum⟩, hadm⟩
    obtain h | h | ⟨cap, n, ho, hn, h⟩ | ⟨n, ho, hn⟩ | ⟨w, hw, h⟩ := hbroken
    · exact h htag
    · exact absurd (hcap 0 h) (by decide)
    · obtain ⟨cap', ho', hle⟩ := hnum n hn
      obtain rfl : cap = cap' := Option.some.inj (ho.symm.trans ho')
      omega
    · obtain ⟨cap, ho', -⟩ := hnum n hn
      cases ho.symm.trans ho'
    · exact absurd (hadm w hw) (Nat.not_lt.2 h)
  refine ⟨by simp [step, sessionStep, hc], fun i => ?_⟩
  obtain ⟨body, e⟩ := exec_operation i s
  rw [e, operation_not_configured body hc]

/-! ## The operands of the copies -/

theorem shortOffset_eq_div (sv : Byte) : shortOffset sv = sv.toNat / 2 := by
  simp [shortOffset, Nat.shiftRight_eq_div_pow]

theorem shortLength_eq_mod (sv : Byte) : shortLength sv = 2 + sv.toNat % 2 := by
  rw [shortLength, BitVec.getLsbD, Nat.toNat_testBit, Nat.pow_zero, Nat.div_one]

theorem lengthCorrection_le (offset : Nat) : lengthCorrection offset ≤ 2 := by
  unfold lengthCorrection
  split_ifs <;> omega

/-- The bands of R51's table from the lowest up, as the reference decoder tests them. -/
theorem lengthCorrection_eq (offset : Nat) :
    lengthCorrection offset =
      if offset < 0x80 then 2 else if offset < 0x500 then 0 else if offset < 0x7D00 then 1 else 2 := by
  unfold lengthCorrection
  split_ifs <;> omega

/-- `G1` bounds the offset of BLK (R51): its high part is at most `G1 - 2`. -/
theorem blockOffset_lt (g1 : Nat) (pair : Bool) (lo : Byte) : blockOffset g1 pair lo < (g1 - 2) * 256 + 256 := by
  have hlo := lo.isLt
  unfold blockOffset blockHigh
  omega

/-- The offset of BLK bounds `G1`: the high part counts `G1` from 2 or 3 up (R51). -/
theorem le_blockOffset_add_three (g1 : Nat) (pair : Bool) (lo : Byte) : g1 ≤ blockOffset g1 pair lo + 3 := by
  have hp := Bool.toNat_le pair
  unfold blockOffset blockHigh
  omega

/-- Settles O36: with NUM_BITS = `n` every gamma number is below `2^n`, and R5 makes `2^n` at least 5, which leaves room
for LO, the length correction and the operands of the short forms. -/
theorem offsetsAndLengthsFitTheirWidths : Obligations.OffsetsAndLengthsFitTheirWidths := by
  intro cfg offBits lenBits pair hv ho hl
  obtain ⟨n, hn, rfl⟩ := Option.map_eq_some_iff.1 ho
  obtain rfl : n + 1 = lenBits := by simpa [Config.lenBits, hn] using hl
  obtain ⟨-, -, hnum⟩ := (Config.valid_iff cfg).1 hv
  obtain ⟨cap, -, hcap⟩ := hnum n hn
  have hfits : ∀ v, gammaOk cfg v = true → 2 ≤ v ∧ v < 2 ^ n := fun v h => by
    obtain ⟨h2, hf⟩ := (gammaOk_iff cfg v).1 h
    exact ⟨h2, (cfg.fitsNum_iff v).1 hf n hn⟩
  rw [Nat.pow_add 2 n 8, Nat.pow_succ]
  refine ⟨fun g1 lo g2 hw => ?_, fun g2 hw => ?_, fun sv => ?_, fun d => ?_⟩
  · obtain ⟨hw1, hw2⟩ : gammaOk cfg g1 = true ∧ gammaOk cfg g2 = true := by simpa [Instr.wf] using hw
    have h1 := hfits g1 hw1
    have h2 := hfits g2 hw2
    have hoff := blockOffset_lt g1 pair lo
    have hcorr := lengthCorrection_le (blockOffset g1 pair lo)
    unfold blockLength
    omega
  · have h2 := hfits g2 hw
    omega
  · have hsv := sv.isLt
    rw [shortOffset_eq_div, shortLength_eq_mod]
    omega
  · have hd := d.isLt
    unfold singleOffset
    omega

/-! ## The stream's frame -/

/-- `t` stands at the same place of the same stream as `s`, under the same parameters and after the same draws. -/
structure SameStream (s t : State) : Prop where
  cfg : t.cfg = s.cfg
  input : t.input = s.input
  inPos : t.inPos = s.inPos
  bitCount : t.bitCount = s.bitCount
  tag : t.tag = s.tag
  draws : t.draws = s.draws

theorem SameStream.trans {s t u : State} (h : SameStream s t) (h' : SameStream t u) : SameStream s u :=
  ⟨h'.cfg.trans h.cfg, h'.input.trans h.input, h'.inPos.trans h.inPos, h'.bitCount.trans h.bitCount,
    h'.tag.trans h.tag, h'.draws.trans h.draws⟩

theorem SameStream.cursor {s t : State} (h : SameStream s t) : t.cursor = s.cursor := by
  simp only [State.cursor, h.inPos, h.bitCount, h.tag]

theorem SameStream.configured {s t : State} (h : SameStream s t) : configured t = configured s := by
  simp only [Machine.configured, h.cfg, h.input]

theorem sameStream_setPair (s : State) (b : Bool) : SameStream s (s.setPair b) := ⟨rfl, rfl, rfl, rfl, rfl, rfl⟩

theorem sameStream_setLastOffset (s : State) (o : Nat) : SameStream s (s.setLastOffset o) :=
  ⟨rfl, rfl, rfl, rfl, rfl, rfl⟩

theorem sameStream_setFsm (s : State) (f : Fsm) : SameStream s (s.setFsm f) := ⟨rfl, rfl, rfl, rfl, rfl, rfl⟩

theorem sameStream_putByte (s : State) (v : Byte) : SameStream s (s.putByte v) := ⟨rfl, rfl, rfl, rfl, rfl, rfl⟩

theorem sameStream_raise (s : State) (f : FaultCode) (cur : OpLabel) (info : Nat) :
    SameStream s (s.raise f cur info) := ⟨rfl, rfl, rfl, rfl, rfl, rfl⟩

theorem sameStream_copyLoop {offset n : Nat} {s t : State} (h : copyLoop offset n s = .go t) : SameStream s t := by
  obtain ⟨e, -, -⟩ := copyLoop_go h
  rw [e]
  exact ⟨rfl, rfl, rfl, rfl, rfl, rfl⟩

section Effects

variable {cur : OpLabel} {fin : State → State} {s t : State}

theorem AppendEffect.sameStream {v : Byte} (hfin : ∀ u, SameStream u (fin u)) (h : AppendEffect cur v fin s t) :
    SameStream s t := by
  cases h with
  | completed _ eq => exact eq ▸ (sameStream_putByte s v).trans (hfin _)
  | full _ eq => exact eq ▸ sameStream_raise ..

theorem CopyEffect.sameStream {offset length : Nat} (hfin : ∀ u, SameStream u (fin u))
    (h : CopyEffect cur offset length fin s t) : SameStream s t := by
  cases h with
  | completed u _ _ loop eq => exact eq ▸ (sameStream_copyLoop loop).trans (hfin u)
  | invalid _ eq => exact eq ▸ sameStream_raise ..
  | full _ _ eq => exact eq ▸ sameStream_raise ..

end Effects

/-- A meaning leaves the stream where its reads left it. -/
theorem exec_sameStream {i : Instr} {s t : State} (h : exec i s = .next t) : SameStream s t := by
  obtain ⟨-, -, he⟩ := exec_effect h
  cases i with
  | first l => exact AppendEffect.sameStream (fun u => (sameStream_setPair u _).trans (sameStream_setFsm _ _)) he
  | lit l => exact AppendEffect.sameStream (fun u => sameStream_setPair u _) he
  | blkReuse g2 => exact CopyEffect.sameStream (fun u => sameStream_setPair u _) he
  | blk g1 lo g2 =>
    exact (sameStream_setLastOffset s _).trans (CopyEffect.sameStream (fun u => sameStream_setPair u _) he)
  | shb sv =>
    exact CopyEffect.sameStream (fun u => (sameStream_setLastOffset u _).trans (sameStream_setPair _ _)) he
  | endStream sv => exact (he : t = _) ▸ sameStream_setFsm ..
  | sbZero => exact AppendEffect.sameStream (fun u => sameStream_setPair u _) he
  | sbCopy d => exact CopyEffect.sameStream (fun u => sameStream_setPair u _) he

/-- Settles O37: the frame of `exec_sameStream`, field by field. -/
theorem operationsLeaveTheStreamAlone : Obligations.OperationsLeaveTheStreamAlone := by
  intro i s t h
  obtain ⟨hcfg, hinput, hpos, hbits, htag, hdraws⟩ := exec_sameStream h
  exact ⟨hcfg, hinput, hpos, hbits, htag, hdraws⟩

/-! ## Completion of the meanings -/

section Completes

variable {cur : OpLabel} {s : State} {k : State → Flow} {fin : State → State}

theorem append_outcome_next (v : Byte) (hk : ∀ u, k u = .go (fin u)) :
    ∃ t, ((append cur v s).andThen k).outcome = .next t := by
  obtain ⟨-, e⟩ | ⟨-, e⟩ := append_cases cur v s <;> simp [e, hk]

theorem backCopy_outcome_next (offset length : Nat) (hw : Written s) (hk : ∀ u, k u = .go (fin u)) :
    ∃ t, ((backCopy cur offset length s).andThen k).outcome = .next t := by
  obtain ⟨-, e⟩ | ⟨-, -, e⟩ | ⟨⟨ho, hle⟩, -, e⟩ := backCopy_cases cur offset length s
  · simp [e]
  · simp [e]
  · obtain ⟨u, hu⟩ := copyLoop_completes length ho hle hw
    simp [e, hu, hk]

end Completes

/-- A selected meaning answers a next state wherever the output so far has been written. -/
theorem exec_completes {i : Instr} {s : State} (hc : configured s = true) (hs : selects i s = true) (hw : Written s) :
    ∃ t, exec i s = .next t := by
  cases i <;>
    (simp only [exec, execFirst, execLit, execBlkReuse, execBlk, execShb, execEndStream, execSbZero, execSbCopy]
     rw [operation_selected _ hc hs])
  · exact append_outcome_next _ fun _ => rfl
  · exact append_outcome_next _ fun _ => rfl
  · exact backCopy_outcome_next _ _ hw fun _ => rfl
  · exact backCopy_outcome_next _ _ hw fun _ => rfl
  · exact backCopy_outcome_next _ _ hw fun _ => rfl
  · exact ⟨_, rfl⟩
  · exact append_outcome_next _ fun _ => rfl
  · exact backCopy_outcome_next _ _ hw fun _ => rfl

/-! ## The reference decoder on the model's operands -/

theorem refCopy_length (offset n : Nat) (out : List Byte) : (refCopy offset n out).length = out.length + n := by
  induction n generalizing out with
  | zero => rfl
  | succ n ih => simp [refCopy, ih]; omega

theorem refBackCopy_eq_some {offset length : Nat} {out o : List Byte} :
    refBackCopy offset length out = some o ↔ (1 ≤ offset ∧ offset ≤ out.length) ∧ refCopy offset length out = o := by
  simp [refBackCopy]

theorem refExec_blk (r : RefState) (g1 : Nat) (lo : Byte) (g2 : Nat) :
    refExec r (.blk g1 lo g2) =
      (refBackCopy (blockOffset g1 r.pair lo) (blockLength (blockOffset g1 r.pair lo) g2) r.out).map fun o =>
        { out := o, pair := false, lastOffset := blockOffset g1 r.pair lo } := by
  simp only [refExec, blockLength, lengthCorrection_eq, blockOffset, blockHigh]

theorem refExec_shb (r : RefState) (sv : Byte) :
    refExec r (.shb sv) =
      (refBackCopy (shortOffset sv) (shortLength sv) r.out).map fun o =>
        { out := o, pair := false, lastOffset := shortOffset sv } := by
  rw [shortOffset_eq_div, shortLength_eq_mod, refExec]

/-- What the reference makes of an operation when it succeeds: the one case of `refExec` with its copy done. -/
def RefEffect (r r' : RefState) : Instr → Prop
  | .first l | .lit l => r' = { r with out := r.out ++ [l], pair := true }
  | .blkReuse g2 => ∃ o, refBackCopy r.lastOffset g2 r.out = some o ∧ r' = { r with out := o, pair := false }
  | .blk g1 lo g2 =>
    ∃ o, refBackCopy (blockOffset g1 r.pair lo) (blockLength (blockOffset g1 r.pair lo) g2) r.out = some o ∧
      r' = { out := o, pair := false, lastOffset := blockOffset g1 r.pair lo }
  | .shb sv =>
    ∃ o, refBackCopy (shortOffset sv) (shortLength sv) r.out = some o ∧
      r' = { out := o, pair := false, lastOffset := shortOffset sv }
  | .endStream _ => r' = r
  | .sbZero => r' = { r with out := r.out ++ [0], pair := true }
  | .sbCopy d => ∃ o, refBackCopy (singleOffset d) 1 r.out = some o ∧ r' = { r with out := o, pair := true }

theorem refEffect_of_refExec {i : Instr} {r r' : RefState} (h : refExec r i = some r') : RefEffect r r' i := by
  cases i with
  | first l => exact (Option.some.inj h).symm
  | lit l => exact (Option.some.inj h).symm
  | blkReuse g2 =>
    obtain ⟨o, ho, e⟩ := Option.map_eq_some_iff.1 h
    exact ⟨o, ho, e.symm⟩
  | blk g1 lo g2 =>
    rw [refExec_blk] at h
    obtain ⟨o, ho, e⟩ := Option.map_eq_some_iff.1 h
    exact ⟨o, ho, e.symm⟩
  | shb sv =>
    rw [refExec_shb] at h
    obtain ⟨o, ho, e⟩ := Option.map_eq_some_iff.1 h
    exact ⟨o, ho, e.symm⟩
  | endStream sv => exact (Option.some.inj h).symm
  | sbZero => exact (Option.some.inj h).symm
  | sbCopy d =>
    obtain ⟨o, ho, e⟩ := Option.map_eq_some_iff.1 h
    exact ⟨o, ho, e.symm⟩

theorem refBackCopy_length {offset length : Nat} {out o : List Byte} (h : refBackCopy offset length out = some o) :
    o.length = out.length + length := by
  rw [← (refBackCopy_eq_some.1 h).2, refCopy_length]

/-- The reference's output only grows. -/
theorem refExec_length_le {i : Instr} {r r' : RefState} (h : refExec r i = some r') :
    r.out.length ≤ r'.out.length := by
  have he := refEffect_of_refExec h
  cases i with
  | first l | lit l | sbZero => rw [(he : r' = _)]; simp
  | endStream sv => rw [(he : r' = _)]
  | blkReuse g2 | blk g1 lo g2 | shb sv | sbCopy d =>
    obtain ⟨o, ho, rfl⟩ := he
    simp [refBackCopy_length ho]

theorem refRun_length_le {is : List Instr} {r r' : RefState} (h : refRun r is = some r') :
    r.out.length ≤ r'.out.length := by
  induction is generalizing r with
  | nil => rw [Option.some.inj h]
  | cons i is ih =>
    obtain ⟨r1, h1, h2⟩ := Option.bind_eq_some_iff.1 h
    exact (refExec_length_le h1).trans (ih h2)

theorem refExec_pair {i : Instr} {r r' : RefState} (h : refExec r i = some r') : r'.pair = i.pairAfter r.pair := by
  have he := refEffect_of_refExec h
  cases i with
  | first l | lit l | sbZero | endStream sv => rw [(he : r' = _)]; rfl
  | blkReuse g2 | blk g1 lo g2 | shb sv | sbCopy d =>
    obtain ⟨o, -, rfl⟩ := he
    rfl

/-- `2^NUM_BITS - 1 >= OUT_CAP + 3` (R5) is what an offset and a length within OUT_CAP need: an operation on which the
unbounded reference succeeds within OUT_CAP has its gamma numbers within NUM_BITS, so NumberOverflow cannot occur
(R91). -/
theorem wf_of_refExec {cfg : Config} {i : Instr} {r r' : RefState} (hv : cfg.valid = true)
    (hw : i.wf .reference = true) (h : refExec r i = some r')
    (hroom : ∀ cap, cfg.outCap = some cap → r'.out.length ≤ cap) : i.wf cfg = true := by
  have hfits : ∀ v, 2 ≤ v → v ≤ r'.out.length + 3 → gammaOk cfg v = true := fun v h2 hle =>
    (gammaOk_iff cfg v).2 ⟨h2, (cfg.fitsNum_iff v).2 fun n hn => by
      obtain ⟨-, -, hnum⟩ := (Config.valid_iff cfg).1 hv
      obtain ⟨cap, hcap, hpow⟩ := hnum n hn
      have := hroom cap hcap
      omega⟩
  have hgamma : ∀ v, gammaOk .reference v = true → 2 ≤ v := fun v hok => ((gammaOk_iff _ v).1 hok).1
  have he := refEffect_of_refExec h
  cases i with
  | first l | lit l | shb sv | endStream sv | sbZero | sbCopy d => exact hw
  | blkReuse g2 =>
    obtain ⟨o, ho, rfl⟩ := he
    have hlen := refBackCopy_length ho
    exact hfits g2 (hgamma g2 hw) (by simp only [hlen]; omega)
  | blk g1 lo g2 =>
    obtain ⟨o, ho, rfl⟩ := he
    have hlen := refBackCopy_length ho
    obtain ⟨⟨-, hoff⟩, -⟩ := refBackCopy_eq_some.1 ho
    have hg1 := le_blockOffset_add_three g1 r.pair lo
    have hg2 : g2 ≤ blockLength (blockOffset g1 r.pair lo) g2 := Nat.le_add_right _ _
    obtain ⟨hw1, hw2⟩ : gammaOk .reference g1 = true ∧ gammaOk .reference g2 = true := by simpa [Instr.wf] using hw
    have hok1 := hfits g1 (hgamma g1 hw1) (by simp only [hlen]; omega)
    have hok2 := hfits g2 (hgamma g2 hw2) (by simp only [hlen]; omega)
    simp [Instr.wf, hok1, hok2]

/-! ## The machine simulates the reference -/

theorem Holds.written {s : State} {out : List Byte} (h : Holds s out) : Written s := by
  obtain ⟨hlen, hread⟩ := h
  intro a ha
  have ha' : a < out.length := hlen ▸ ha
  simp [hread a ha', ha']

theorem Holds.putByte {s : State} {out : List Byte} (h : Holds s out) (v : Byte) :
    Holds (s.putByte v) (out ++ [v]) := by
  obtain ⟨hlen, hread⟩ := h
  refine ⟨by simp [hlen], fun a ha => ?_⟩
  rw [State.putByte_out, Memory.read_write, hlen]
  split
  next heq => simp [heq]
  next hne =>
    have ha' : a < out.length := by simp only [List.length_append, List.length_singleton] at ha; omega
    rw [hread a ha', List.getElem?_append_left ha']

/-- The loop of R73 makes of OUT what the reference makes of its list. -/
theorem copyLoop_holds {offset : Nat} (n : Nat) {s t : State} {out : List Byte} (h : Holds s out)
    (ho : 1 ≤ offset ∧ offset ≤ out.length) (hl : copyLoop offset n s = .go t) :
    Holds t (refCopy offset n out) := by
  induction n generalizing s out with
  | zero => exact Flow.go.inj hl ▸ h
  | succ n ih =>
    have hread : s.out.read (s.outLen - offset) = some (out.getD (out.length - offset) 0) := by
      rw [h.1, h.2 _ (by omega), List.getD_eq_getElem?_getD, List.getElem?_eq_getElem (by omega)]
      rfl
    simp only [copyLoop, hread] at hl
    exact ih (h.putByte _) (by simp only [List.length_append]; omega) hl

/-- The machine's registers and OUT hold what the reference keeps. -/
structure Tracks (s : State) (r : RefState) : Prop where
  out : Holds s r.out
  pair : s.pair = r.pair
  lastOffset : s.lastOffset = r.lastOffset

/-- The session state after an operation that completes (R67). -/
def fsmAfter : Instr → Fsm → Fsm
  | .first _, _ => .running
  | .endStream _, _ => .terminated
  | _, f => f

section Effects

variable {cur : OpLabel} {fin : State → State} {s t : State} {out : List Byte}

theorem AppendEffect.holds {v : Byte} (h : AppendEffect cur v fin s t) (hs : Holds s out)
    (hroom : ∀ cap, s.cfg.outCap = some cap → (out ++ [v]).length ≤ cap) :
    t = fin (s.putByte v) ∧ Holds (s.putByte v) (out ++ [v]) := by
  have hr : s.cfg.hasRoom s.outLen 1 = true := (hasRoom_iff ..).2 fun cap hcap => by
    simpa [hs.1] using hroom cap hcap
  cases h with
  | completed _ eq => exact ⟨eq, hs.putByte v⟩
  | full room _ => simp [hr] at room

theorem CopyEffect.holds {offset length : Nat} {o : List Byte} (h : CopyEffect cur offset length fin s t)
    (hs : Holds s out) (ho : refBackCopy offset length out = some o)
    (hroom : ∀ cap, s.cfg.outCap = some cap → o.length ≤ cap) :
    ∃ u, t = fin u ∧ Holds u o ∧ u = { s with out := u.out, outLen := u.outLen } := by
  have hlen := refBackCopy_length ho
  obtain ⟨hb, rfl⟩ := refBackCopy_eq_some.1 ho
  have hr : s.cfg.hasRoom s.outLen length = true := (hasRoom_iff ..).2 fun cap hcap => by
    rw [hs.1, ← hlen]; exact hroom cap hcap
  cases h with
  | completed u _ _ loop eq =>
    refine ⟨u, eq, copyLoop_holds length hs hb loop, ?_⟩
    obtain ⟨e, -, -⟩ := copyLoop_go loop
    rw [e]
  | invalid bound _ => rw [hs.1] at bound; omega
  | full _ room _ => simp [hr] at room

end Effects

/-- A completed meaning keeps the simulation: where the reference succeeds and its output fits, none of the faults
occurs. -/
theorem Effect.tracks {i : Instr} {s t : State} {r r' : RefState} (he : Effect i s t) (h : Tracks s r)
    (hr : refExec r i = some r') (hroom : ∀ cap, s.cfg.outCap = some cap → r'.out.length ≤ cap) :
    Tracks t r' ∧ t.fsm = fsmAfter i s.fsm := by
  obtain ⟨hout, hpair, hoff⟩ := h
  have hre := refEffect_of_refExec hr
  cases i with
  | first l | lit l | sbZero =>
    obtain rfl : r' = _ := hre
    obtain ⟨rfl, ho⟩ := AppendEffect.holds he hout hroom
    exact ⟨⟨ho, rfl, hoff⟩, rfl⟩
  | endStream sv =>
    obtain rfl : r' = r := hre
    obtain rfl : t = _ := he
    exact ⟨⟨hout, hpair, hoff⟩, rfl⟩
  | blkReuse g2 =>
    obtain ⟨o, hcopy, rfl⟩ := hre
    obtain ⟨u, rfl, ho, hu⟩ := CopyEffect.holds he hout (hoff ▸ hcopy) hroom
    refine ⟨⟨ho, rfl, ?_⟩, ?_⟩
    · rw [State.setPair_lastOffset, hu]; exact hoff
    · rw [State.setPair_fsm, hu]; rfl
  | blk g1 lo g2 =>
    obtain ⟨o, hcopy, rfl⟩ := hre
    rw [← hpair] at hcopy
    obtain ⟨u, rfl, ho, hu⟩ := CopyEffect.holds he hout hcopy hroom
    refine ⟨⟨ho, rfl, ?_⟩, ?_⟩
    · rw [State.setPair_lastOffset, hu, ← hpair]; rfl
    · rw [State.setPair_fsm, hu]; rfl
  | shb sv =>
    obtain ⟨o, hcopy, rfl⟩ := hre
    obtain ⟨u, rfl, ho, hu⟩ := CopyEffect.holds he hout hcopy hroom
    refine ⟨⟨ho, rfl, rfl⟩, ?_⟩
    rw [State.setPair_fsm, State.setLastOffset_fsm, hu]; rfl
  | sbCopy d =>
    obtain ⟨o, hcopy, rfl⟩ := hre
    obtain ⟨u, rfl, ho, hu⟩ := CopyEffect.holds he hout hcopy hroom
    refine ⟨⟨ho, rfl, ?_⟩, ?_⟩
    · rw [State.setPair_lastOffset, hu]; exact hoff
    · rw [State.setPair_fsm, hu]; rfl

/-- Where the reference succeeds within OUT_CAP, the selected meaning goes to the state that tracks its result. -/
theorem exec_tracks {i : Instr} {s : State} {r r' : RefState} (hc : configured s = true) (hs : selects i s = true)
    (h : Tracks s r) (hr : refExec r i = some r')
    (hroom : ∀ cap, s.cfg.outCap = some cap → r'.out.length ≤ cap) :
    ∃ t, exec i s = .next t ∧ Tracks t r' ∧ t.fsm = fsmAfter i s.fsm := by
  obtain ⟨t, ht⟩ := exec_completes hc hs h.out.written
  obtain ⟨-, -, he⟩ := exec_effect ht
  exact ⟨t, ht, he.tracks h hr hroom⟩

theorem selected_first {i : Instr} {pair : Bool} (h : i.selected true pair = true) : ∃ l, i = .first l := by
  cases i <;> simp [Instr.selected] at h ⊢

/-- A selected operation other than END, completed, leaves the session in RUNNING. -/
theorem fsmAfter_eq_running {i : Instr} {s : State} (hin : inSession s = true)
    (hsel : i.selected (decide (s.fsm = .start)) s.pair = true) (hi : ∀ x, i ≠ .endStream x) :
    fsmAfter i s.fsm = .running := by
  obtain h | h := (inSession_iff s).1 hin
  · obtain ⟨l, rfl⟩ := selected_first (by simpa [h] using hsel)
    rfl
  · cases i with
    | endStream sv => exact absurd rfl (hi sv)
    | first l | lit l | blkReuse g2 | blk g1 lo g2 | shb sv | sbZero | sbCopy d => simp [fsmAfter, h]

theorem fsmAfter_ne_start {i : Instr} {s : State} (hin : inSession s = true)
    (hsel : i.selected (decide (s.fsm = .start)) s.pair = true) : fsmAfter i s.fsm ≠ .start := by
  by_cases hi : ∃ x, i = .endStream x
  · obtain ⟨x, rfl⟩ := hi
    simp [fsmAfter]
  · simp [fsmAfter_eq_running hin hsel fun x e => hi ⟨x, e⟩]

/-! ## A session on an assembled stream -/

/-- A session of which `ops` is still to come: they lie ahead of the cursor with `tail` after them, the registers track
`r`, and the reference goes from `r` over `ops` to `final`, whose output fits. -/
structure Following (tail : List Byte) (final : RefState) (ops : List Instr) (s : State) (r : RefState) : Prop where
  config : configured s = true
  ahead : Ahead s.input tail s.cursor (ops.flatMap items)
  tracks : Tracks s r
  spelled : streamOk .reference (decide (s.fsm = .start)) r.pair ops = true
  reaches : refRun r ops = some final
  room : ∀ cap, s.cfg.outCap = some cap → final.out.length ≤ cap

/-- One step of a session runs the next operation of the stream and goes on following it. -/
theorem step_following {tail : List Byte} {final : RefState} {i : Instr} {is : List Instr} {s : State} {r : RefState}
    (h : Following tail final (i :: is) s r) (hin : inSession s = true) :
    ∃ t r1, step s = .next t ∧ Following tail final is t r1 ∧ t.input = s.input ∧ t.fsm = fsmAfter i s.fsm ∧
      ((∀ x, i ≠ .endStream x) → inSession t = true) := by
  obtain ⟨hc, hahead, htracks, hspelled, hreaches, hroom⟩ := h
  obtain ⟨⟨hwRef, hsel⟩, hrest⟩ :
      (i.wf .reference = true ∧ i.selected (decide (s.fsm = .start)) r.pair = true) ∧
        streamOk .reference false (i.pairAfter r.pair) is = true := by
    simpa [streamOk] using hspelled
  rw [← htracks.pair] at hsel
  obtain ⟨r1, hr1, hreaches'⟩ := Option.bind_eq_some_iff.1 hreaches
  have hroom1 : ∀ cap, s.cfg.outCap = some cap → r1.out.length ≤ cap := fun cap hcap =>
    (refRun_length_le hreaches').trans (hroom cap hcap)
  have hw : i.wf s.cfg = true := wf_of_refExec ((configured_iff s).1 hc).1 hwRef hr1 hroom1
  obtain ⟨c, hfetch, hahead'⟩ := decode_ahead hw hsel (by simpa using hahead)
  obtain ⟨t, ht, htracks', hfsm⟩ :=
    exec_tracks (s := s.withCursor c) hc ((selects_iff i _).2 ⟨hw, hin, hsel⟩)
      ⟨htracks.out, htracks.pair, htracks.lastOffset⟩ hr1 hroom1
  have hsame := exec_sameStream ht
  refine ⟨t, r1, (step_instr hc hin hfetch).trans ht, ⟨?_, ?_, htracks', ?_, hreaches', ?_⟩, hsame.input, hfsm, ?_⟩
  · exact hsame.configured.trans hc
  · rw [hsame.input, hsame.cursor]
    exact hahead'
  · rw [hfsm, State.withCursor_fsm, decide_eq_false (fsmAfter_ne_start hin hsel), refExec_pair hr1]
    exact hrest
  · rw [hsame.cfg]
    exact hroom
  · exact fun hi => (inSession_iff t).2 (.inr (hfsm.trans (fsmAfter_eq_running hin hsel hi)))

/-- A session that follows a stream with its only END at the end takes one step an operation and terminates. -/
theorem run_following {tail : List Byte} {final : RefState} {sv : Byte} (body : List Instr) {s : State} {r : RefState}
    (h : Following tail final (body ++ [.endStream sv]) s r) (hin : inSession s = true)
    (hbody : ∀ i ∈ body, ∀ x, i ≠ .endStream x) :
    ∃ t, Host.Core.run Sys2Proof.core (body.length + 1) s = .next t ∧ t.fsm = .terminated ∧
      Following tail final [] t final ∧ t.input = s.input := by
  induction body generalizing s r with
  | nil =>
    obtain ⟨t, r1, hstep, hfollow, hinput, hfsm, -⟩ := step_following h hin
    obtain rfl : r1 = final := Option.some.inj hfollow.reaches
    exact ⟨t, run_next hstep 0, hfsm, hfollow, hinput⟩
  | cons i body ih =>
    obtain ⟨hi, hbody'⟩ := List.forall_mem_cons.1 hbody
    obtain ⟨t, r1, hstep, hfollow, hinput, -, hin'⟩ := step_following h hin
    obtain ⟨u, hrun, hterm, hend, hinput'⟩ := ih hfollow (hin' hi) hbody'
    exact ⟨u, (run_next hstep _).trans hrun, hterm, hend, hinput'.trans hinput⟩

/-- A start command that is accepted binds the input under legal parameters and enters START (R102). -/
theorem startMove_next {input : List Byte} {s t : State} (h : startMove input s = .next t) :
    t = s.sessionStart input ∧ configured t = true := by
  unfold startMove at h
  split at h
  next hc =>
    split at h
    · cases h
    · cases h
      exact ⟨rfl, hc⟩
  next => cases h

/-- At the start of a session on an assembled stream, the whole stream is to come. -/
theorem following_start {s s0 : State} {ops : List Instr} {tail : List Byte} {final : RefState}
    (hok : streamOk .reference true false ops = true) (hrun : refRun .fresh ops = some final)
    (hroom : ∀ cap, s.cfg.outCap = some cap → final.out.length ≤ cap)
    (hstart : startMove (assemble ops ++ tail) s = .next s0) :
    Following tail final ops s0 .fresh := by
  obtain ⟨rfl, hc⟩ := startMove_next hstart
  exact ⟨hc, ahead_assemble ops tail, ⟨⟨rfl, fun _ h => absurd h (Nat.not_lt_zero _)⟩, rfl, rfl⟩, hok, hrun, hroom⟩

/-- Settles O49: the session follows the stream from its start (`following_start`) to its END (`run_following`), where
nothing of it is ahead and the registers track the reference's final state. -/
theorem sessionDecodesAssembledStream : Obligations.SessionDecodesAssembledStream := by
  intro s s0 body sv tail r hok hbody hrun hroom hstart
  obtain ⟨hs0, -⟩ := startMove_next hstart
  obtain ⟨t, ht, hterm, hend, hinput⟩ :=
    run_following body (following_start hok hrun hroom hstart) (by simp [hs0, inSession]) hbody
  have hpos : t.inPos + tail.length = t.input.length := inPos_of_ahead_nil hend.ahead
  rw [hinput, hs0, State.sessionStart_input, List.length_append] at hpos
  exact ⟨t, ht, hterm, hend.tracks.out, Nat.add_right_cancel hpos, hend.tracks.pair, hend.tracks.lastOffset⟩

end Sys2Proof.Machine

/-! # Proofs of the state family (10_state.md)

What the decoder's reads consume and where they raise, the decoder on an input that is cut off, what a meaning completed
or failed leaves, the invariant of R27, two states of one session, and the host's registers. -/

namespace Sys2Proof

/-! ## What the reads consume -/

/-- `c'` is reached from `c` by reading `bits` bits and `raws` raw bytes, in some order (R55, R56). -/
inductive Reads (input : List Byte) : Nat → Nat → Cursor → Cursor → Prop
  | refl (c : Cursor) : Reads input 0 0 c c
  | bit {b : Bool} {bits raws : Nat} {c c1 c2 : Cursor} (read : readBit input c = .done b c1)
      (rest : Reads input bits raws c1 c2) : Reads input (bits + 1) raws c c2
  | raw {v : Byte} {bits raws : Nat} {c c1 c2 : Cursor} (read : readByte input c = .done v c1)
      (rest : Reads input bits raws c1 c2) : Reads input bits (raws + 1) c c2

section Reads

variable {input : List Byte} {c c1 c2 c' : Cursor}

theorem Reads.trans {bits raws bits' raws' : Nat} (h : Reads input bits raws c c1)
    (h' : Reads input bits' raws' c1 c2) : Reads input (bits + bits') (raws + raws') c c2 := by
  induction h with
  | refl c => simpa using h'
  | bit read _ ih => rw [Nat.add_right_comm]; exact .bit read (ih h')
  | raw read _ ih => rw [Nat.add_right_comm]; exact .raw read (ih h')

theorem Reads.one_bit {b : Bool} (h : readBit input c = .done b c') : Reads input 1 0 c c' := .bit h (.refl c')

theorem Reads.one_raw {v : Byte} (h : readByte input c = .done v c') : Reads input 0 1 c c' := .raw h (.refl c')

theorem readByte_done {v : Byte} (h : readByte input c = .done v c') :
    c' = { c with inPos := c.inPos + 1 } ∧ c.inPos < input.length := by
  obtain ⟨-, e⟩ | ⟨w, -, hlt, e⟩ := inByte_cases input c
  · cases e.symm.trans h
  · cases e.symm.trans h
    exact ⟨rfl, hlt⟩

theorem readByte_raised {f : FaultCode} (h : readByte input c = .raised f c') :
    f = .unexpectedEndOfInput ∧ c' = c ∧ input.length ≤ c.inPos := by
  obtain ⟨hle, e⟩ | ⟨w, -, -, e⟩ := inByte_cases input c
  · cases e.symm.trans h
    exact ⟨rfl, rfl, hle⟩
  · cases e.symm.trans h

theorem readBit_raised {f : FaultCode} (h : readBit input c = .raised f c') :
    f = .unexpectedEndOfInput ∧ c' = c ∧ input.length ≤ c.inPos := by
  obtain ⟨-, hle, e⟩ | ⟨v, -, -, -, e⟩ | ⟨-, e⟩ := readBit_cases input c
  · cases e.symm.trans h
    exact ⟨rfl, rfl, hle⟩
  · cases e.symm.trans h
  · cases e.symm.trans h

/-- R61's count of reloads, and `bit_count` after it. -/
theorem Reads.cursor {bits raws : Nat} (h : Reads input bits raws c c') :
    c'.inPos = c.inPos + raws + (bits - c.bitCount.toNat + 7) / 8 ∧
      (c'.bitCount.toNat + bits) % 8 = c.bitCount.toNat := by
  induction h with
  | refl c =>
    have := c.bitCount.isLt
    omega
  | @bit b bits raws c c1 c2 read _ ih =>
    obtain ⟨-, -, e⟩ | ⟨v, hb, -, -, e⟩ | ⟨hb, e⟩ := readBit_cases input c
    · cases e.symm.trans read
    · cases e.symm.trans read
      have h0 : c.bitCount.toNat = 0 := by rw [hb]; rfl
      have h7 : (7 : BitVec 3).toNat = 7 := rfl
      simp only [h7] at ih
      omega
    · cases e.symm.trans read
      have := bitCount_pos hb
      have := c.bitCount.isLt
      simp only at ih
      omega
  | raw read _ ih =>
    obtain ⟨rfl, -⟩ := readByte_done read
    simp only at ih
    omega

/-- R27's rules for the cursor: `in_pos <= N` and `tag[7 - bit_count : 0] = 0`. -/
def CursorOk (input : List Byte) (c : Cursor) : Prop :=
  c.inPos ≤ input.length ∧ c.tag.toNat % 2 ^ (8 - c.bitCount.toNat) = 0

theorem shiftLeft_one_tail {t : Byte} {k : Nat} (hk : k ≤ 7) (h : t.toNat % 2 ^ k = 0) :
    (t <<< 1).toNat % 2 ^ (k + 1) = 0 := by
  have hd : 2 ^ (k + 1) ∣ 2 ^ 8 := Nat.pow_dvd_pow 2 (by omega)
  rw [BitVec.toNat_shiftLeft, Nat.mod_mod_of_dvd _ hd, Nat.shiftLeft_eq, Nat.pow_one, Nat.pow_succ,
    Nat.mul_mod_mul_right, h, Nat.zero_mul]

theorem Reads.cursorOk {bits raws : Nat} (h : Reads input bits raws c c') (hc : CursorOk input c) :
    CursorOk input c' := by
  induction h with
  | refl c => exact hc
  | @bit b bits raws c c1 c2 read _ ih =>
    apply ih
    obtain ⟨hpos, htag⟩ := hc
    obtain ⟨-, -, e⟩ | ⟨v, -, -, hlt, e⟩ | ⟨hb, e⟩ := readBit_cases input c
    · cases e.symm.trans read
    · cases e.symm.trans read
      exact ⟨hlt, shiftLeft_one_tail (k := 0) (by omega) (Nat.mod_one _)⟩
    · cases e.symm.trans read
      have hp := bitCount_pos hb
      have hlt := c.bitCount.isLt
      refine ⟨hpos, ?_⟩
      have hk : 8 - (c.bitCount - 1).toNat = (8 - c.bitCount.toNat) + 1 := by omega
      simp only [hk]
      exact shiftLeft_one_tail (by omega) htag
  | raw read _ ih =>
    obtain ⟨rfl, hlt⟩ := readByte_done read
    exact ih ⟨hlt, hc.2⟩

/-! ## The compound reads: what they consume when they return -/

theorem readFixed_done {n acc v : Nat} (h : readFixed input n acc c = .done v c') : Reads input n 0 c c' := by
  induction n generalizing acc c with
  | zero => cases h; exact .refl _
  | succ n ih =>
    obtain ⟨b, c1, hr, h⟩ := Read.bind_eq_done h
    exact .bit hr (ih h)

/-- A unary count `n` takes a bit for each of its set bits and one for the bit that ended it, if any did (R59). -/
theorem unaryLoop_done {set : Bool} {left count n : Nat} (h : unaryLoop input set left count c = .done n c') :
    count ≤ n ∧ n ≤ count + left ∧ Reads input (min (n - count + 1) left) 0 c c' := by
  induction left generalizing count c with
  | zero => cases h; exact ⟨le_rfl, le_rfl, by simpa using .refl _⟩
  | succ left ih =>
    obtain ⟨b, c1, hr, h⟩ := Read.bind_eq_done h
    split at h
    · obtain ⟨hlo, hhi, hreads⟩ := ih h
      refine ⟨by omega, by omega, ?_⟩
      rw [show min (n - count + 1) (left + 1) = min (n - (count + 1) + 1) left + 1 by omega]
      exact .bit hr hreads
    · cases h
      exact ⟨le_rfl, by omega, by simpa using .one_bit hr⟩

theorem log2_fold {acc : Nat} (d : Bool) (h : 1 ≤ acc) : Nat.log2 (acc * 2 + d.toNat) = Nat.log2 acc + 1 := by
  have hd := Bool.toNat_le d
  rw [Nat.log2_def, if_pos (by omega), show (acc * 2 + d.toNat) / 2 = acc by omega]

/-- The loop of R57 takes two bits for each bit it folds, and the continuation bit that ends it. -/
theorem gammaLoop_done {cfg : Config} {fuel acc v : Nat} (h : gammaLoop cfg input fuel acc c = .done v c')
    (ha : 1 ≤ acc) : ∃ k, Nat.log2 v = Nat.log2 acc + k ∧ Reads input (2 * k + 1) 0 c c' := by
  induction fuel generalizing acc c with
  | zero => cases h
  | succ fuel ih =>
    obtain ⟨cont, c1, hr, h⟩ := Read.bind_eq_done h
    split at h
    · split at h
      · cases h
      · obtain ⟨d, c2, hd, h⟩ := Read.bind_eq_done h
        obtain ⟨k, hk, hreads⟩ := ih h (by omega)
        exact ⟨k + 1, by rw [hk, log2_fold d ha]; omega, .bit hr (.bit hd hreads)⟩
    · cases h
      exact ⟨0, rfl, .one_bit hr⟩

/-- A gamma number takes the bits of its code (R49, R57). -/
theorem readGamma_done {cfg : Config} {v : Nat} (h : readGamma cfg input c = .done v c') :
    Reads input (Machine.glen v) 0 c c' := by
  obtain ⟨d, c1, hr, h⟩ := Read.bind_eq_done h
  obtain ⟨k, hk, hreads⟩ := gammaLoop_done h (by omega)
  have h1 : Nat.log2 1 = 0 := by decide
  rw [log2_fold d le_rfl, h1] at hk
  rw [Machine.glen, hk, show 2 * (0 + 1 + k) = 2 * k + 1 + 1 by omega]
  exact .bit hr hreads

/-! ## Where the reads raise -/

/-- A raise of `f` at `c'` by reads that began at `c`: end of data is raised only where no byte is left (R32). -/
structure RaisedAt (input : List Byte) (c : Cursor) (f : FaultCode) (c' : Cursor) : Prop where
  reads : ∃ bits raws, Reads input bits raws c c'
  exhausted : f = .unexpectedEndOfInput → input.length ≤ c'.inPos

theorem RaisedAt.after {bits raws : Nat} {f : FaultCode} (h : Reads input bits raws c c1)
    (h' : RaisedAt input c1 f c') : RaisedAt input c f c' := by
  obtain ⟨⟨_, _, hreads⟩, hend⟩ := h'
  exact ⟨⟨_, _, h.trans hreads⟩, hend⟩

theorem raisedAt_readByte {f : FaultCode} (h : readByte input c = .raised f c') : RaisedAt input c f c' := by
  obtain ⟨-, rfl, hle⟩ := readByte_raised h
  exact ⟨⟨_, _, .refl _⟩, fun _ => hle⟩

theorem raisedAt_readBit {f : FaultCode} (h : readBit input c = .raised f c') : RaisedAt input c f c' := by
  obtain ⟨-, rfl, hle⟩ := readBit_raised h
  exact ⟨⟨_, _, .refl _⟩, fun _ => hle⟩

theorem readFixed_raised {n acc : Nat} {f : FaultCode} (h : readFixed input n acc c = .raised f c') :
    f = .unexpectedEndOfInput ∧ RaisedAt input c f c' := by
  induction n generalizing acc c with
  | zero => cases h
  | succ n ih =>
    obtain hr | ⟨b, c1, hr, h⟩ := Read.bind_eq_raised h
    · exact ⟨(readBit_raised hr).1, raisedAt_readBit hr⟩
    · exact (ih h).imp_right (.after (.one_bit hr))

theorem unaryLoop_raised {set : Bool} {left count : Nat} {f : FaultCode}
    (h : unaryLoop input set left count c = .raised f c') : RaisedAt input c f c' := by
  induction left generalizing count c with
  | zero => cases h
  | succ left ih =>
    obtain hr | ⟨b, c1, hr, h⟩ := Read.bind_eq_raised h
    · exact raisedAt_readBit hr
    · split at h
      · exact .after (.one_bit hr) (ih h)
      · cases h

theorem gammaLoop_raised {cfg : Config} {fuel acc : Nat} {f : FaultCode} (hfuel : bitsLeft input c ≤ fuel)
    (h : gammaLoop cfg input fuel acc c = .raised f c') :
    (f = .unexpectedEndOfInput ∨ f = .numberOverflow) ∧ RaisedAt input c f c' := by
  induction fuel generalizing acc c with
  | zero =>
    cases h
    refine ⟨.inl rfl, ⟨_, _, .refl _⟩, fun _ => ?_⟩
    unfold bitsLeft at hfuel
    omega
  | succ fuel ih =>
    obtain hr | ⟨cont, c1, hr, h⟩ := Read.bind_eq_raised h
    · exact ⟨.inl (readBit_raised hr).1, raisedAt_readBit hr⟩
    have hleft := readBit_bitsLeft hr
    split at h
    · split at h
      · cases h
        exact ⟨.inr rfl, ⟨_, _, .one_bit hr⟩, nofun⟩
      · obtain hd | ⟨d, c2, hd, h⟩ := Read.bind_eq_raised h
        · exact ⟨.inl (readBit_raised hd).1, .after (.one_bit hr) (raisedAt_readBit hd)⟩
        · have hleft' := readBit_bitsLeft hd
          exact (ih (by omega) h).imp_right (.after (.bit hr (.one_bit hd)))
    · cases h

theorem readGamma_raised {cfg : Config} {f : FaultCode} (h : readGamma cfg input c = .raised f c') :
    (f = .unexpectedEndOfInput ∨ f = .numberOverflow) ∧ RaisedAt input c f c' := by
  obtain hr | ⟨d, c1, hr, h⟩ := Read.bind_eq_raised h
  · exact ⟨.inl (readBit_raised hr).1, raisedAt_readBit hr⟩
  · exact (gammaLoop_raised le_rfl h).imp_right (.after (.one_bit hr))

end Reads

/-! ## The reads of one operation -/

/-- The label of the operation in progress once its opcode is known (R62). -/
def Opcode.label : Opcode → OpLabel
  | .literal => .lit
  | .block => .block
  | .shortBlock => .short
  | .singleByte => .single

/-- The label under which an operation runs (R19, R62). -/
def Instr.label : Instr → OpLabel
  | .first _ => .first
  | .lit _ => .lit
  | .blkReuse _ | .blk _ _ _ => .block
  | .shb _ | .endStream _ => .short
  | .sbZero | .sbCopy _ => .single

theorem decodeOpcode_eq (cfg : Config) (pair : Bool) (input : List Byte) (c : Cursor) :
    decodeOpcode cfg pair input c =
      (readUnary input 3 true c).under .opPrefix fun n c1 => decodeOperands cfg pair input (Opcode.ofCount n) c1 := by
  unfold decodeOpcode decodeOperands
  rfl

section Operands

variable {cfg : Config} {pair : Bool} {input : List Byte} {c c' : Cursor} {i : Instr} {f : FaultCode} {cur : OpLabel}

theorem decodeFirst_instr (h : decodeFirst input c = .instr i c') :
    ∃ l, i = .first l ∧ readByte input c = .done l c' := by
  obtain ⟨l, c1, hr, h⟩ := Read.under_eq_instr h
  cases h
  exact ⟨l, rfl, hr⟩

theorem decodeFirst_raised (h : decodeFirst input c = .raised f cur c') :
    cur = .first ∧ f = .unexpectedEndOfInput ∧ RaisedAt input c f c' := by
  obtain ⟨hr, rfl⟩ | ⟨l, c1, -, h⟩ := Read.under_eq_raised h
  · exact ⟨rfl, (readByte_raised hr).1, raisedAt_readByte hr⟩
  · cases h

theorem decodeLiteral_raised (h : decodeLiteral input c = .raised f cur c') :
    cur = .lit ∧ f = .unexpectedEndOfInput ∧ RaisedAt input c f c' := by
  obtain ⟨hr, rfl⟩ | ⟨l, c1, -, h⟩ := Read.under_eq_raised h
  · exact ⟨rfl, (readByte_raised hr).1, raisedAt_readByte hr⟩
  · cases h

theorem decodeShort_raised (h : decodeShort input c = .raised f cur c') :
    cur = .short ∧ f = .unexpectedEndOfInput ∧ RaisedAt input c f c' := by
  obtain ⟨hr, rfl⟩ | ⟨sv, c1, -, h⟩ := Read.under_eq_raised h
  · exact ⟨rfl, (readByte_raised hr).1, raisedAt_readByte hr⟩
  · split at h <;> cases h

theorem decodeSingle_raised (h : decodeSingle input c = .raised f cur c') :
    cur = .single ∧ f = .unexpectedEndOfInput ∧ RaisedAt input c f c' := by
  obtain ⟨hr, rfl⟩ | ⟨d, c1, -, h⟩ := Read.under_eq_raised h
  · exact ⟨rfl, readFixed_raised hr⟩
  · split at h <;> cases h

theorem decodeBlock_raised (h : decodeBlock cfg pair input c = .raised f cur c') :
    cur = .block ∧ (f = .unexpectedEndOfInput ∨ f = .numberOverflow) ∧ RaisedAt input c f c' := by
  obtain ⟨hr, rfl⟩ | ⟨g1, c1, hg1, h⟩ := Read.under_eq_raised h
  · exact ⟨rfl, readGamma_raised hr⟩
  have h1 := readGamma_done hg1
  split at h
  · obtain ⟨hr, rfl⟩ | ⟨g2, c2, -, h⟩ := Read.under_eq_raised h
    · exact ⟨rfl, (readGamma_raised hr).imp_right (.after h1)⟩
    · cases h
  · obtain ⟨hr, rfl⟩ | ⟨lo, c2, hlo, h⟩ := Read.under_eq_raised h
    · exact ⟨rfl, .inl (readByte_raised hr).1, .after h1 (raisedAt_readByte hr)⟩
    · obtain ⟨hr, rfl⟩ | ⟨g2, c3, -, h⟩ := Read.under_eq_raised h
      · exact ⟨rfl, (readGamma_raised hr).imp_right (.after (h1.trans (.one_raw hlo)))⟩
      · cases h

/-- Where an opcode's own reads raise, they do it under the opcode's label. -/
theorem decodeOperands_raised {o : Opcode} (h : decodeOperands cfg pair input o c = .raised f cur c') :
    cur = o.label ∧ RaisedAt input c f c' := by
  cases o with
  | literal =>
    obtain ⟨hcur, -, hat⟩ := decodeLiteral_raised h
    exact ⟨hcur, hat⟩
  | block =>
    obtain ⟨hcur, -, hat⟩ := decodeBlock_raised h
    exact ⟨hcur, hat⟩
  | shortBlock =>
    obtain ⟨hcur, -, hat⟩ := decodeShort_raised h
    exact ⟨hcur, hat⟩
  | singleByte =>
    obtain ⟨hcur, -, hat⟩ := decodeSingle_raised h
    exact ⟨hcur, hat⟩

/-- A raise of the decoder is one of its reads', under some operation's label. -/
theorem decode_raised {isFirst : Bool} (h : decode cfg isFirst pair input c = .raised f cur c') :
    cur ≠ .none ∧ RaisedAt input c f c' := by
  cases isFirst with
  | true =>
    obtain ⟨rfl, -, hat⟩ := decodeFirst_raised h
    exact ⟨nofun, hat⟩
  | false =>
    have h : decodeOpcode cfg pair input c = .raised f cur c' := h
    rw [decodeOpcode_eq] at h
    obtain ⟨hr, rfl⟩ | ⟨n, c1, hu, h⟩ := Read.under_eq_raised h
    · exact ⟨nofun, unaryLoop_raised hr⟩
    · obtain ⟨rfl, hat⟩ := decodeOperands_raised h
      obtain ⟨-, -, hreads⟩ := unaryLoop_done hu
      exact ⟨by cases Opcode.ofCount n <;> nofun, .after hreads hat⟩

/-- The operand reads of an opcode yield one of its forms, having taken what R49's table gives that form beyond the
opcode's unary code. -/
theorem decodeOperands_instr {o : Opcode} (h : decodeOperands cfg pair input o c = .instr i c') :
    i.label = o.label ∧
      ∃ bits, Machine.bitsRead i = o.code.length + bits ∧ Reads input bits (Machine.rawRead i) c c' := by
  cases o with
  | literal =>
    obtain ⟨l, c1, hr, h⟩ := Read.under_eq_instr h
    cases h
    exact ⟨rfl, 0, rfl, .one_raw hr⟩
  | block =>
    obtain ⟨g1, c1, hg1, h⟩ := Read.under_eq_instr h
    have h1 := readGamma_done hg1
    split at h
    next hform =>
      obtain ⟨g2, c2, hg2, h⟩ := Read.under_eq_instr h
      cases h
      obtain ⟨rfl, -⟩ := hform
      exact ⟨rfl, 2 + Machine.glen g2, Nat.add_assoc .., h1.trans (readGamma_done hg2)⟩
    next =>
      obtain ⟨lo, c2, hlo, h⟩ := Read.under_eq_instr h
      obtain ⟨g2, c3, hg2, h⟩ := Read.under_eq_instr h
      cases h
      exact ⟨rfl, Machine.glen g1 + Machine.glen g2, Nat.add_assoc ..,
        (h1.trans (.one_raw hlo)).trans (readGamma_done hg2)⟩
  | shortBlock =>
    obtain ⟨sv, c1, hr, h⟩ := Read.under_eq_instr h
    split at h <;> cases h <;> exact ⟨rfl, 0, rfl, .one_raw hr⟩
  | singleByte =>
    obtain ⟨d, c1, hr, h⟩ := Read.under_eq_instr h
    split at h <;> cases h <;> exact ⟨rfl, 4, rfl, readFixed_done hr⟩

/-- A unary count takes as many bits as the code of its opcode has (R48, R63). -/
theorem readUnary_done {n : Nat} (h : readUnary input 3 true c = .done n c') :
    Reads input (Opcode.ofCount n).code.length 0 c c' := by
  obtain ⟨-, hn, hreads⟩ := unaryLoop_done h
  obtain rfl | rfl | rfl | rfl : n = 0 ∨ n = 1 ∨ n = 2 ∨ n = 3 := by omega
  all_goals exact hreads

/-- A decoded operation has read the bits and the raw bytes of its row in R49's table. -/
theorem decode_reads {isFirst : Bool} (h : decode cfg isFirst pair input c = .instr i c') :
    Reads input (Machine.bitsRead i) (Machine.rawRead i) c c' := by
  cases isFirst with
  | true =>
    obtain ⟨l, rfl, hr⟩ := decodeFirst_instr h
    exact .one_raw hr
  | false =>
    have h : decodeOpcode cfg pair input c = .instr i c' := h
    rw [decodeOpcode_eq] at h
    obtain ⟨n, c1, hu, h⟩ := Read.under_eq_instr h
    obtain ⟨-, bits, hbits, hreads⟩ := decodeOperands_instr h
    rw [hbits, ← Nat.zero_add (Machine.rawRead i)]
    exact (readUnary_done hu).trans hreads

end Operands

/-- Settles O4: a decoded operation's reads are those of its row (`decode_reads`), and any such reads move the cursor as
R61 says (`Reads.cursor`). -/
theorem operationReadsItsBitsAndBytes : Obligations.OperationReadsItsBitsAndBytes := by
  intro cfg isFirst pair input c c' i h
  exact (decode_reads h).cursor

end Sys2Proof

namespace Sys2Proof

/-! ## Input cut off -/

/-- `r'`, made on the first `n` bytes of an input, is what `r` is on the whole of it, or has run out of them. -/
def Read.CutAt {α : Type} (n : Nat) (r r' : Read α) : Prop :=
  r' = r ∨ ∃ c, r' = .raised .unexpectedEndOfInput c ∧ n ≤ c.inPos

/-- The same of two decodings. -/
def Decoded.CutAt (n : Nat) (d d' : Decoded) : Prop :=
  d' = d ∨ ∃ cur c, d' = .raised .unexpectedEndOfInput cur c ∧ n ≤ c.inPos

theorem Read.CutAt.bind {α β : Type} {n : Nat} {r r' : Read α} {k k' : α → Cursor → Read β} (h : Read.CutAt n r r')
    (hk : ∀ v c, Read.CutAt n (k v c) (k' v c)) : Read.CutAt n (r.bind k) (r'.bind k') := by
  obtain rfl | ⟨c, rfl, hc⟩ := h
  · cases r' with
    | done v c => exact hk v c
    | raised f c => exact .inl rfl
  · exact .inr ⟨c, rfl, hc⟩

theorem Read.CutAt.under {α : Type} {n : Nat} {cur : OpLabel} {r r' : Read α} {k k' : α → Cursor → Decoded}
    (h : Read.CutAt n r r') (hk : ∀ v c, Decoded.CutAt n (k v c) (k' v c)) :
    Decoded.CutAt n (r.under cur k) (r'.under cur k') := by
  obtain rfl | ⟨c, rfl, hc⟩ := h
  · cases r' with
    | done v c => exact hk v c
    | raised f c => exact .inl rfl
  · exact .inr ⟨cur, c, rfl, hc⟩

section Cut

variable (cfg : Config) (pair : Bool) (input : List Byte) (n : Nat)

theorem readByte_cut (c : Cursor) : (readByte input c).CutAt n (readByte (input.take n) c) := by
  unfold readByte inByte
  by_cases h : c.inPos < n
  · exact .inl (by rw [List.getElem?_take_of_lt h])
  · have hnone : (input.take n)[c.inPos]? = none := List.getElem?_take_eq_none (Nat.not_lt.1 h)
    exact .inr ⟨c, by rw [hnone], Nat.not_lt.1 h⟩

theorem readBit_cut (c : Cursor) : (readBit input c).CutAt n (readBit (input.take n) c) := by
  unfold readBit
  split
  · exact (readByte_cut input n c).bind fun _ _ => .inl rfl
  · exact .inl rfl

theorem readFixed_cut (m acc : Nat) (c : Cursor) :
    (readFixed input m acc c).CutAt n (readFixed (input.take n) m acc c) := by
  induction m generalizing acc c with
  | zero => exact .inl rfl
  | succ m ih => exact (readBit_cut input n c).bind fun b c1 => ih _ c1

theorem unaryLoop_cut (set : Bool) (left count : Nat) (c : Cursor) :
    (unaryLoop input set left count c).CutAt n (unaryLoop (input.take n) set left count c) := by
  induction left generalizing count c with
  | zero => exact .inl rfl
  | succ left ih =>
    refine (readBit_cut input n c).bind fun b c1 => ?_
    split
    · exact ih _ c1
    · exact .inl rfl

theorem gammaLoop_cut (fuel acc : Nat) (c : Cursor) :
    (gammaLoop cfg input fuel acc c).CutAt n (gammaLoop cfg (input.take n) fuel acc c) := by
  induction fuel generalizing acc c with
  | zero => exact .inl rfl
  | succ fuel ih =>
    refine (readBit_cut input n c).bind fun cont c1 => ?_
    split
    · split
      · exact .inl rfl
      · exact (readBit_cut input n c1).bind fun d c2 => ih _ c2
    · exact .inl rfl

theorem bitsLeft_take_le (c : Cursor) : bitsLeft (input.take n) c ≤ bitsLeft input c := by
  unfold bitsLeft
  rw [List.length_take]
  omega

theorem readGamma_cut (c : Cursor) : (readGamma cfg input c).CutAt n (readGamma cfg (input.take n) c) := by
  refine (readBit_cut input n c).bind fun d c1 => ?_
  rw [← gammaLoop_fuel cfg (input.take n) (bitsLeft input c1) _ c1 (bitsLeft_take_le input n c1)]
  exact gammaLoop_cut cfg input n _ _ c1

theorem decodeOperands_cut (o : Opcode) (c : Cursor) :
    (decodeOperands cfg pair input o c).CutAt n (decodeOperands cfg pair (input.take n) o c) := by
  cases o with
  | literal => exact (readByte_cut input n c).under fun _ _ => .inl rfl
  | block =>
    refine (readGamma_cut cfg input n c).under fun g1 c1 => ?_
    split
    · exact (readGamma_cut cfg input n c1).under fun _ _ => .inl rfl
    · refine (readByte_cut input n c1).under fun lo c2 => ?_
      exact (readGamma_cut cfg input n c2).under fun _ _ => .inl rfl
  | shortBlock => exact (readByte_cut input n c).under fun _ _ => .inl rfl
  | singleByte => exact (readFixed_cut input n 4 0 c).under fun _ _ => .inl rfl

theorem decode_cut (isFirst : Bool) (c : Cursor) :
    (decode cfg isFirst pair input c).CutAt n (decode cfg isFirst pair (input.take n) c) := by
  cases isFirst with
  | true => exact (readByte_cut input n c).under fun _ _ => .inl rfl
  | false =>
    show (decodeOpcode cfg pair input c).CutAt n (decodeOpcode cfg pair (input.take n) c)
    rw [decodeOpcode_eq, decodeOpcode_eq]
    exact (unaryLoop_cut input n true 3 0 c).under fun k c1 => decodeOperands_cut cfg pair input n _ c1

end Cut

/-! ## The label at the raise -/

/-- A bit read returns where a bit is left. -/
theorem readBit_completes {input : List Byte} {c : Cursor} (h : 0 < bitsLeft input c) :
    ∃ b c', readBit input c = .done b c' := by
  obtain ⟨hb, hle, -⟩ | ⟨v, -, -, -, e⟩ | ⟨-, e⟩ := readBit_cases input c
  · simp [bitsLeft, hb, Nat.sub_eq_zero_of_le hle] at h
  · exact ⟨_, _, e⟩
  · exact ⟨_, _, e⟩

/-- A unary read that has the bits for its whole range returns a count. -/
theorem unaryLoop_completes {input : List Byte} {set : Bool} {left count : Nat} {c : Cursor}
    (h : left ≤ bitsLeft input c) : ∃ k c', unaryLoop input set left count c = .done k c' := by
  induction left generalizing count c with
  | zero => exact ⟨count, c, rfl⟩
  | succ left ih =>
    obtain ⟨b, c1, hr⟩ := readBit_completes (Nat.zero_lt_of_lt h)
    have hleft := readBit_bitsLeft hr
    rw [unaryLoop, hr, Read.bind_done]
    split
    · exact ih (by omega)
    · exact ⟨count, c1, rfl⟩

/-- Where the bits of the whole unary code are there, a cut raises under the label of the operation that stands uncut:
the code selects the same opcode. -/
theorem decode_take_label {cfg : Config} {i : Instr} {pair : Bool} {input : List Byte} {n : Nat} {c c1 c2 : Cursor}
    {f : FaultCode} {cur : OpLabel} (hbits : 3 ≤ bitsLeft (input.take n) c)
    (hdec : decodeOpcode cfg pair input c = .instr i c1)
    (hcut : decodeOpcode cfg pair (input.take n) c = .raised f cur c2) : cur = i.label := by
  rw [decodeOpcode_eq] at hdec hcut
  obtain ⟨k, c3, hu⟩ : ∃ k c3, readUnary (input.take n) 3 true c = .done k c3 := unaryLoop_completes hbits
  have hu' : readUnary input 3 true c = .done k c3 := by
    obtain e | ⟨c4, e, -⟩ := unaryLoop_cut input n true 3 0 c
    · exact e.symm.trans hu
    · cases hu.symm.trans e
  rw [hu, Read.under_done] at hcut
  rw [hu', Read.under_done] at hdec
  exact (decodeOperands_raised hcut).1.trans (decodeOperands_instr hdec).1.symm

/-- Encoded bytes decode back with nothing left over. -/
theorem decode_encode {cfg : Config} {i : Instr} {isFirst pair : Bool} (hw : i.wf cfg = true)
    (hs : i.selected isFirst pair = true) :
    ∃ c, decode cfg isFirst pair (encode i) ⟨0, 0, 0⟩ = .instr i c ∧ c.inPos = (encode i).length := by
  have hahead : Ahead (encode i) [] ⟨0, 0, 0⟩ (items i ++ []) := ⟨rfl, by simp [encode], by simp [encode]⟩
  obtain ⟨c, hdec, hahead'⟩ := decode_ahead hw hs hahead
  exact ⟨c, hdec, inPos_of_ahead_nil hahead'⟩

/-- On the first `n` bytes of an operation's encoding the decoder runs out of them: were it to return, it would have
read past them. -/
theorem decode_take_raised {cfg : Config} {i : Instr} {isFirst pair : Bool} {n : Nat} (hw : i.wf cfg = true)
    (hs : i.selected isFirst pair = true) (hn : n < (encode i).length) :
    ∃ cur c, c.inPos = n ∧
      decode cfg isFirst pair ((encode i).take n) ⟨0, 0, 0⟩ = .raised .unexpectedEndOfInput cur c := by
  obtain ⟨c1, hdec, hend⟩ := decode_encode hw hs
  have hlen : ((encode i).take n).length = n := by rw [List.length_take, Nat.min_eq_left hn.le]
  have hwithin : ∀ {bits raws c}, Reads ((encode i).take n) bits raws ⟨0, 0, 0⟩ c → c.inPos ≤ n := fun h =>
    hlen ▸ (h.cursorOk ⟨Nat.zero_le _, rfl⟩).1
  obtain e | ⟨cur, c, e, hc⟩ := decode_cut cfg pair (encode i) n isFirst ⟨0, 0, 0⟩
  · have := hwithin (decode_reads (e.trans hdec))
    omega
  · obtain ⟨-, ⟨bits, raws, hreads⟩, -⟩ := decode_raised e
    exact ⟨cur, c, (hwithin hreads).antisymm hc, e⟩

/-- An opcode cut off raises under `opPrefix` where no byte is there and under its own label otherwise. -/
theorem decode_take_opcode {cfg : Config} {i : Instr} {pair : Bool} {n : Nat} (hw : i.wf cfg = true)
    (hs : i.selected false pair = true) (hn : n < (encode i).length) :
    ∃ c, c.inPos = n ∧ decode cfg false pair ((encode i).take n) ⟨0, 0, 0⟩ =
      .raised .unexpectedEndOfInput (if n = 0 then .opPrefix else i.label) c := by
  obtain ⟨cur, c, hc, e⟩ := decode_take_raised hw hs hn
  split
  next h0 => exact ⟨⟨0, 0, 0⟩, h0.symm, by rw [h0]; rfl⟩
  next h0 =>
    obtain ⟨c1, hdec, -⟩ := decode_encode hw hs
    have hbits : 3 ≤ bitsLeft ((encode i).take n) ⟨0, 0, 0⟩ := by
      simp only [bitsLeft, List.length_take]
      omega
    exact ⟨c, hc, decode_take_label hbits hdec e ▸ e⟩

/-- Settles O13: the decoder runs out of the bytes (`decode_take_raised`), under the label `decode_take_opcode` gives;
FIRST is one byte long, so a cut leaves none of it. -/
theorem truncatedOperationRunsOutOfInput : Obligations.TruncatedOperationRunsOutOfInput := by
  intro cfg i isFirst pair n hw hs hn
  cases isFirst with
  | true =>
    obtain ⟨l, rfl⟩ := Machine.selected_first hs
    obtain rfl : n = 0 := Nat.lt_one_iff.1 hn
    exact ⟨⟨0, 0, 0⟩, rfl, rfl⟩
  | false =>
    cases i with
    | first l => cases hs
    | lit l | blkReuse g2 | blk g1 lo g2 | shb sv | endStream sv | sbZero | sbCopy d =>
      exact decode_take_opcode hw hs hn

end Sys2Proof

namespace Sys2Proof.Machine

/-! ## What a meaning completed or failed leaves -/

/-- The distance an operation copies from, where it copies at all (R51, R52, R78). -/
def copyOffset (s : State) : Instr → Option Nat
  | .blkReuse _ => some s.lastOffset
  | .blk g1 lo _ => some (blockOffset g1 s.pair lo)
  | .shb sv => some (shortOffset sv)
  | .sbCopy d => some (singleOffset d)
  | .first _ | .lit _ | .endStream _ | .sbZero => none

/-- How many bytes an operation appends (R51, R52, R68). -/
def appendedBytes (s : State) : Instr → Nat
  | .blkReuse g2 => g2
  | .blk g1 lo g2 => blockLength (blockOffset g1 s.pair lo) g2
  | .shb sv => shortLength sv
  | .endStream _ => 0
  | .first _ | .lit _ | .sbZero | .sbCopy _ => 1

/-- `last_offset` where an operation's checks find it: BLK has written it by then (C7). -/
def offsetAtChecks (s : State) : Instr → Nat
  | .blk g1 lo _ => blockOffset g1 s.pair lo
  | _ => s.lastOffset

/-- `last_offset` after an operation that completes (R15). -/
def offsetAfter (s : State) : Instr → Nat
  | .blk g1 lo _ => blockOffset g1 s.pair lo
  | .shb sv => shortOffset sv
  | _ => s.lastOffset

/-- `t` has the OUT and the fault record of `s`. -/
structure SameOutput (s t : State) : Prop where
  out : t.out = s.out
  outLen : t.outLen = s.outLen
  errCode : t.errCode = s.errCode
  errOp : t.errOp = s.errOp
  errInfo : t.errInfo = s.errInfo

/-- `t` has the OUT of `s` with `n` bytes appended, and its fault record. -/
structure Extended (n : Nat) (s t : State) : Prop where
  outLen : t.outLen = s.outLen + n
  stays : ∀ a, a < s.outLen ∨ s.outLen + n ≤ a → t.out.read a = s.out.read a
  canonical : s.out.wf = true → t.out.wf = true
  written : Written s → Written t
  errCode : t.errCode = s.errCode
  errOp : t.errOp = s.errOp
  errInfo : t.errInfo = s.errInfo

theorem SameOutput.written {s t : State} (h : SameOutput s t) (hw : Written s) : Written t := by
  intro a ha
  rw [h.out]
  exact hw a (h.outLen ▸ ha)

theorem SameOutput.extended {s t : State} (h : SameOutput s t) : Extended 0 s t where
  outLen := h.outLen
  stays := fun _ _ => by rw [h.out]
  canonical := fun hw => by rw [h.out, hw]
  written := h.written
  errCode := h.errCode
  errOp := h.errOp
  errInfo := h.errInfo

theorem Extended.trans {m n : Nat} {s t u : State} (h : Extended m s t) (h' : Extended n t u) :
    Extended (m + n) s u where
  outLen := by rw [h'.outLen, h.outLen, Nat.add_assoc]
  stays := fun a ha => by
    have hlen := h.outLen
    rw [h'.stays a (by omega), h.stays a (by omega)]
  canonical := h'.canonical ∘ h.canonical
  written := h'.written ∘ h.written
  errCode := h'.errCode.trans h.errCode
  errOp := h'.errOp.trans h.errOp
  errInfo := h'.errInfo.trans h.errInfo

theorem extended_putByte (s : State) (v : Byte) : Extended 1 s (s.putByte v) where
  outLen := rfl
  stays := fun a ha => Memory.read_write_other _ v (by omega)
  canonical := Memory.wf_write _ v
  written := fun hw a ha => by
    rw [State.putByte_outLen] at ha
    rw [State.putByte_out, Memory.read_write]
    split
    · rfl
    · exact hw a (by omega)
  errCode := rfl
  errOp := rfl
  errInfo := rfl

theorem extended_copyLoop {offset n : Nat} {s t : State} (h : copyLoop offset n s = .go t) : Extended n s t := by
  induction n generalizing s with
  | zero =>
    cases h
    exact SameOutput.extended ⟨rfl, rfl, rfl, rfl, rfl⟩
  | succ n ih =>
    simp only [copyLoop] at h
    split at h
    · cases h
    · rw [Nat.add_comm]
      exact (extended_putByte s _).trans (ih h)

/-- What an operation that completes leaves (R14, R15, R67, R68, R73). -/
structure Completed (i : Instr) (s t : State) : Prop where
  extended : Extended (appendedBytes s i) s t
  room : ∀ cap, s.cfg.outCap = some cap → s.outLen ≤ cap → t.outLen ≤ cap
  bound : ∀ o, copyOffset s i = some o → 1 ≤ o ∧ o ≤ s.outLen
  pair : t.pair = i.pairAfter s.pair
  lastOffset : t.lastOffset = offsetAfter s i
  fsm : t.fsm = fsmAfter i s.fsm

/-- What an operation that fails leaves: the raise, from the state its checks found (R69, R72, R75). -/
inductive Failed (i : Instr) (s t : State) : Prop
  | invalid (o : Nat) (copies : copyOffset s i = some o)
      (eq : t = (s.setLastOffset (offsetAtChecks s i)).raise .invalidBackReference i.label o)
  | full (eq : t = (s.setLastOffset (offsetAtChecks s i)).raise .outputCapacityExceeded i.label (appendedBytes s i))

/-- The updates `fin` are the ones operation `i`, begun in `s`, makes once its bytes are written. -/
structure Finishes (i : Instr) (s : State) (fin : State → State) : Prop where
  output : ∀ u, SameOutput u (fin u)
  pair : ∀ u, (fin u).pair = i.pairAfter s.pair
  lastOffset : ∀ u, u.lastOffset = offsetAtChecks s i → (fin u).lastOffset = offsetAfter s i
  fsm : ∀ u, u.fsm = s.fsm → (fin u).fsm = fsmAfter i s.fsm

section Effects

variable {i : Instr} {s t : State} {fin : State → State}

theorem AppendEffect.completed_or_failed {v : Byte} (h : AppendEffect i.label v fin s t) (hfin : Finishes i s fin)
    (hbytes : appendedBytes s i = 1) (hcopy : copyOffset s i = none) (hoff : offsetAtChecks s i = s.lastOffset) :
    Completed i s t ∨ Failed i s t := by
  cases h with
  | completed room eq =>
    subst eq
    have hx : Extended 1 s (fin (s.putByte v)) := (extended_putByte s v).trans (hfin.output _).extended
    refine .inl ⟨hbytes ▸ hx, fun cap hcap _ => ?_, fun o ho => ?_, hfin.pair _, hfin.lastOffset _ hoff.symm,
      hfin.fsm _ rfl⟩
    · rw [hx.outLen]
      exact (hasRoom_iff ..).1 room cap hcap
    · cases hcopy.symm.trans ho
  | full _ eq => exact .inr (.full (by rw [hoff, hbytes]; exact eq))

theorem CopyEffect.completed_or_failed {offset : Nat}
    (h : CopyEffect i.label offset (appendedBytes s i) fin (s.setLastOffset (offsetAtChecks s i)) t)
    (hfin : Finishes i s fin) (hcopy : copyOffset s i = some offset) : Completed i s t ∨ Failed i s t := by
  cases h with
  | completed u bound room loop eq =>
    subst eq
    have hx : Extended (appendedBytes s i) s (fin u) := by
      have hstart : Extended 0 s (s.setLastOffset (offsetAtChecks s i)) :=
        SameOutput.extended ⟨rfl, rfl, rfl, rfl, rfl⟩
      simpa using (hstart.trans (extended_copyLoop loop)).trans (hfin.output u).extended
    obtain ⟨hu, -, -⟩ := copyLoop_go loop
    refine .inl ⟨hx, fun cap hcap _ => ?_, fun o ho => ?_, hfin.pair u, hfin.lastOffset u (by rw [hu]; rfl),
      hfin.fsm u (by rw [hu]; rfl)⟩
    · rw [hx.outLen]
      exact (hasRoom_iff ..).1 room cap hcap
    · cases hcopy.symm.trans ho
      exact bound
  | invalid _ eq => exact .inr (.invalid offset hcopy eq)
  | full _ _ eq => exact .inr (.full eq)

end Effects

theorem Effect.completed_or_failed {i : Instr} {s t : State} (he : Effect i s t) :
    Completed i s t ∨ Failed i s t := by
  cases i with
  | first l =>
    exact AppendEffect.completed_or_failed he
      ⟨fun _ => ⟨rfl, rfl, rfl, rfl, rfl⟩, fun _ => rfl, fun _ h => h, fun _ _ => rfl⟩ rfl rfl rfl
  | lit l | sbZero =>
    exact AppendEffect.completed_or_failed he
      ⟨fun _ => ⟨rfl, rfl, rfl, rfl, rfl⟩, fun _ => rfl, fun _ h => h, fun _ h => h⟩ rfl rfl rfl
  | blkReuse g2 | blk g1 lo g2 | sbCopy d =>
    exact CopyEffect.completed_or_failed he
      ⟨fun _ => ⟨rfl, rfl, rfl, rfl, rfl⟩, fun _ => rfl, fun _ h => h, fun _ h => h⟩ rfl
  | shb sv =>
    exact CopyEffect.completed_or_failed he
      ⟨fun _ => ⟨rfl, rfl, rfl, rfl, rfl⟩, fun _ => rfl, fun _ _ => rfl, fun _ h => h⟩ rfl
  | endStream sv =>
    obtain rfl : t = _ := he
    exact .inl ⟨SameOutput.extended ⟨rfl, rfl, rfl, rfl, rfl⟩, fun _ _ h => h, nofun, rfl, rfl, rfl⟩

/-- A meaning that answers a next state was selected and either completed or failed. -/
theorem exec_next {i : Instr} {s t : State} (h : exec i s = .next t) :
    selects i s = true ∧ (Completed i s t ∨ Failed i s t) := by
  obtain ⟨-, hs, he⟩ := exec_effect h
  exact ⟨hs, he.completed_or_failed⟩

end Sys2Proof.Machine

namespace Sys2Proof.Machine

/-! ## Frames -/

/-- In a session an operation that completes ends in RUNNING or TERMINATED (R67). -/
theorem Completed.fsm_cases {i : Instr} {s t : State} (h : Completed i s t) (hs : selects i s = true) :
    ((∀ x, i ≠ .endStream x) ∧ t.fsm = .running) ∨ (∃ x, i = .endStream x) ∧ t.fsm = .terminated := by
  obtain ⟨-, hin, hsel⟩ := (selects_iff i s).1 hs
  by_cases hend : ∃ x, i = .endStream x
  · obtain ⟨x, rfl⟩ := hend
    exact .inr ⟨⟨x, rfl⟩, h.fsm⟩
  · have hi : ∀ x, i ≠ .endStream x := fun x e => hend ⟨x, e⟩
    exact .inl ⟨hi, h.fsm.trans (fsmAfter_eq_running hin hsel hi)⟩

theorem Completed.not_failed {i : Instr} {s t : State} (h : Completed i s t) (hs : selects i s = true) :
    t.fsm ≠ .failed := by
  obtain ⟨-, e⟩ | ⟨-, e⟩ := h.fsm_cases hs <;> rw [e] <;> nofun

/-- The frame of a failed operation (R75, R92). -/
structure Failed.Frame (i : Instr) (s t : State) : Prop where
  fsm : t.fsm = .failed
  out : t.out = s.out
  outLen : t.outLen = s.outLen
  pair : t.pair = s.pair
  lastOffset : t.lastOffset = offsetAtChecks s i

theorem Failed.frame {i : Instr} {s t : State} (h : Failed i s t) : Failed.Frame i s t := by
  cases h with
  | invalid o _ eq => exact eq ▸ ⟨rfl, rfl, rfl, rfl, rfl⟩
  | full eq => exact eq ▸ ⟨rfl, rfl, rfl, rfl, rfl⟩

section Exec

variable {i : Instr} {s t : State} (h : exec i s = .next t)
include h

theorem exec_completed (hfsm : t.fsm ≠ .failed) : Completed i s t :=
  (exec_next h).2.resolve_right fun hfail => hfsm hfail.frame.fsm

theorem exec_failed (hfsm : t.fsm = .failed) : Failed i s t :=
  (exec_next h).2.resolve_left fun hcomp => hcomp.not_failed (exec_next h).1 hfsm

/-- Completed or failed, an operation touches no byte of OUT but the ones it appends. -/
theorem exec_out_stays {a : Nat} (ha : a < s.outLen ∨ s.outLen + appendedBytes s i ≤ a) :
    t.out.read a = s.out.read a := by
  obtain ⟨-, hcomp | hfail⟩ := exec_next h
  · exact hcomp.extended.stays a ha
  · rw [hfail.frame.out]

theorem exec_lastOffset : t.lastOffset = if t.fsm = .failed then offsetAtChecks s i else offsetAfter s i := by
  split
  next hfsm => exact (exec_failed h hfsm).frame.lastOffset
  next hfsm => exact (exec_completed h hfsm).lastOffset

end Exec

/-- Settles O38: the three operations append one byte and leave `last_offset` alone. -/
theorem appendingOperationsFrame : Obligations.AppendingOperationsFrame := by
  intro i s t hi h
  have hform : appendedBytes s i = 1 ∧ offsetAtChecks s i = s.lastOffset ∧ offsetAfter s i = s.lastOffset := by
    obtain ⟨l, rfl⟩ | ⟨l, rfl⟩ | rfl := hi <;> exact ⟨rfl, rfl, rfl⟩
  obtain ⟨hbytes, hbefore, hafter⟩ := hform
  refine ⟨?_, fun a ha => exec_out_stays h (by omega), fun hfsm => ?_, fun hfsm => ?_⟩
  · rw [exec_lastOffset h, hbefore, hafter, ite_self]
  · have hx := (exec_completed h hfsm).extended
    exact ⟨hbytes ▸ hx.outLen, hx.errCode, hx.errOp, hx.errInfo⟩
  · have hframe := (exec_failed h hfsm).frame
    exact ⟨hframe.out, hframe.outLen, hframe.pair⟩

/-- Settles O39: a copy appends the bytes its meaning computes; `offsetAtChecks` and `offsetAfter` say which of the four
writes `last_offset`, and when. -/
theorem copyingOperationsFrame : Obligations.CopyingOperationsFrame := by
  intro i s t length hi h
  have hform : appendedBytes s i = length ∧ ∀ x, i ≠ .endStream x := by
    obtain rfl | ⟨g1, lo, g2, rfl, rfl⟩ | ⟨sv, rfl, rfl⟩ | ⟨d, rfl, rfl⟩ := hi <;> exact ⟨rfl, nofun⟩
  obtain ⟨rfl, hend⟩ := hform
  have hlast := exec_lastOffset h
  refine ⟨fun a ha => exec_out_stays h ha, fun hfsm => ?_, fun hfsm => ?_, ?_, ?_, ?_⟩
  · have hcomp := exec_completed h hfsm
    have hrun : t.fsm = .running := by
      obtain ⟨-, e⟩ | ⟨⟨x, e⟩, -⟩ := hcomp.fsm_cases (exec_next h).1
      · exact e
      · exact absurd e (hend x)
    have hx := hcomp.extended
    exact ⟨hrun, hx.outLen, hx.errCode, hx.errOp, hx.errInfo⟩
  · have hframe := (exec_failed h hfsm).frame
    exact ⟨hframe.out, hframe.outLen, hframe.pair⟩
  · rintro g1 lo g2 rfl
    exact hlast.trans (ite_self _)
  · rintro sv rfl
    exact hlast
  · rintro (⟨g2, rfl⟩ | ⟨d, rfl⟩) <;> exact hlast.trans (ite_self _)

/-- Everything a step that answers a next state did: its operation completed or failed in the state the reads left, or a
read raised. -/
theorem step_outcome {s t : State} (h : step s = .next t) :
    (∃ i c, fetch s = .instr i c ∧ exec i (s.withCursor c) = .next t ∧ selects i s = true ∧
      (Completed i (s.withCursor c) t ∨ Failed i (s.withCursor c) t)) ∨
    ∃ f cur c, fetch s = .raised f cur c ∧ t = (s.withCursor c).raise f cur 0 := by
  obtain ⟨-, -, ⟨i, c, hf, he⟩ | hraised⟩ := step_next h
  · exact .inl ⟨i, c, hf, he, exec_next he⟩
  · exact .inr hraised

/-- Settles O40: a completed operation extends OUT, and a failed one or a raise of the reads keeps it. -/
theorem outIsAppendOnly : Obligations.OutIsAppendOnly := by
  intro s t h
  obtain ⟨i, c, -, -, -, hcomp | hfail⟩ | ⟨f, cur, c, -, rfl⟩ := step_outcome h
  · have hlen : t.outLen = s.outLen + _ := hcomp.extended.outLen
    exact ⟨by omega, fun a ha => hcomp.extended.stays a (hlen ▸ ha)⟩
  · obtain ⟨-, hout, hlen, -, -⟩ := hfail.frame
    exact ⟨hlen.ge, fun a _ => by rw [hout]; rfl⟩
  · exact ⟨le_rfl, fun a _ => rfl⟩

/-- Settles O42: a completed operation leaves `pair` as `Instr.pairAfter` says. -/
theorem pairFollowsItsTable : Obligations.PairFollowsItsTable := by
  intro s t i c hf h hfsm
  obtain ⟨i', c', hf', -, -, hcomp | hfail⟩ | ⟨f, cur, c', -, rfl⟩ := step_outcome h
  · cases hf.symm.trans hf'
    cases i <;> exact hcomp.pair
  · exact absurd hfail.frame.fsm hfsm
  · exact absurd rfl hfsm

/-- Settles O43: `offsetAfter` and `offsetAtChecks` differ from `last_offset` for BLK and SHB only, and a completed
block has copied at the offset it leaves. -/
theorem lastOffsetIsWrittenByBlocksOnly : Obligations.LastOffsetIsWrittenByBlocksOnly := by
  intro s t h
  obtain ⟨i, c, hf, hexec, -⟩ | ⟨f, cur, c, hf, rfl⟩ := step_outcome h
  · refine ⟨fun hne => ⟨i, c, hf, ?_⟩, fun i' c' hf' hblock hfsm => ?_⟩
    · have hlast := exec_lastOffset hexec
      cases i with
      | blk g1 lo g2 => exact .inl ⟨g1, lo, g2, rfl⟩
      | shb sv => exact .inr ⟨sv, rfl⟩
      | first l | lit l | blkReuse g2 | endStream sv | sbZero | sbCopy d =>
        exact absurd (hlast.trans (ite_self _)) hne
    · cases hf.symm.trans hf'
      have hcomp := exec_completed hexec hfsm
      have hcopy : copyOffset (s.withCursor c) i = some t.lastOffset := by
        rw [hcomp.lastOffset]
        obtain ⟨g2, rfl⟩ | ⟨g1, lo, g2, rfl⟩ | ⟨sv, rfl⟩ := hblock <;> rfl
      obtain ⟨hpos, hle⟩ := hcomp.bound _ hcopy
      exact ⟨hpos, hle.trans (hcomp.extended.outLen ▸ Nat.le_add_right _ _)⟩
  · exact ⟨fun hne => absurd rfl hne, fun _ _ hf' => absurd (hf.symm.trans hf') nofun⟩

end Sys2Proof.Machine

namespace Sys2Proof.Machine

/-! ## The widths of an operation's offset and length -/

theorem offBits_of_numBits {cfg : Config} {n : Nat} (h : cfg.numBits = some n) : cfg.offBits = some (n + 8) := by
  simp [Config.offBits, h]

theorem lenBits_of_numBits {cfg : Config} {n : Nat} (h : cfg.numBits = some n) : cfg.lenBits = some (n + 1) := by
  simp [Config.lenBits, h]

section Widths

variable {i : Instr} {s : State} (hv : s.cfg.valid = true) (hw : i.wf s.cfg = true)
include hv hw

/-- An offset fits in OFF_BITS bits, that of BLK_REUSE because `last_offset` does. -/
theorem copyOffset_fits (hlast : FitsOff s.cfg s.lastOffset) {o : Nat} (ho : copyOffset s i = some o) :
    FitsOff s.cfg o := by
  intro n hn
  obtain ⟨hblk, -, hshb, hsb⟩ :=
    offsetsAndLengthsFitTheirWidths s.cfg _ _ s.pair hv (offBits_of_numBits hn) (lenBits_of_numBits hn)
  cases i with
  | first l | lit l | endStream sv | sbZero => cases ho
  | blkReuse g2 => cases ho; exact hlast n hn
  | blk g1 lo g2 => cases ho; exact (hblk g1 lo g2 hw).1
  | shb sv => cases ho; exact (hshb sv).1
  | sbCopy d => cases ho; exact (hsb d).1

/-- A length fits in LEN_BITS bits, and LEN_BITS is less than OFF_BITS. -/
theorem appendedBytes_fits : FitsOff s.cfg (appendedBytes s i) := by
  intro n hn
  obtain ⟨hblk, hreuse, hshb, hsb⟩ :=
    offsetsAndLengthsFitTheirWidths s.cfg _ _ s.pair hv (offBits_of_numBits hn) (lenBits_of_numBits hn)
  have hone : 1 < 2 ^ (n + 1) := (hsb 0).2
  suffices h : appendedBytes s i < 2 ^ (n + 1) from h.trans_le (Nat.pow_le_pow_right (by omega) (by omega))
  cases i with
  | first l | lit l | sbZero | sbCopy d => exact hone
  | endStream sv => exact Nat.zero_lt_of_lt hone
  | blkReuse g2 => exact hreuse g2 hw
  | blk g1 lo g2 => exact (hblk g1 lo g2 hw).2
  | shb sv => exact (hshb sv).2

/-- `last_offset` fits in OFF_BITS bits at an operation's checks. -/
theorem offsetAtChecks_fits (hlast : FitsOff s.cfg s.lastOffset) : FitsOff s.cfg (offsetAtChecks s i) := by
  cases i with
  | blk g1 lo g2 => exact copyOffset_fits hv hw hlast rfl
  | first l | lit l | blkReuse g2 | shb sv | endStream sv | sbZero | sbCopy d => exact hlast

end Widths

/-- A completed operation leaves `last_offset` as it was or at the offset it copied from. -/
theorem offsetAfter_cases (s : State) (i : Instr) :
    offsetAfter s i = s.lastOffset ∨ copyOffset s i = some (offsetAfter s i) := by
  cases i with
  | blk g1 lo g2 | shb sv => exact .inr rfl
  | first l | lit l | blkReuse g2 | endStream sv | sbZero | sbCopy d => exact .inl rfl

/-! ## The invariant after a step -/

section Step

variable {s t : State} {c : Cursor} (h : Inv s)
include h

theorem Inv.cursorOk : CursorOk s.input s.cursor := ⟨h.cursorWithin, h.tagTail⟩

/-- A raise keeps the invariant, wherever the reads left the cursor: it records a fault and enters FAILED. -/
theorem inv_raise {o info : Nat} {f : FaultCode} {cur : OpLabel} (hc : CursorOk s.input c)
    (hend : f = .unexpectedEndOfInput → s.input.length ≤ c.inPos) (hcur : cur ≠ .none) (ho : FitsOff s.cfg o)
    (hinfo : FitsOff s.cfg info) : Inv (((s.withCursor c).setLastOffset o).raise f cur info) where
  config := h.config
  outCanonical := h.outCanonical
  outWritten := h.outWritten
  outWithin := h.outWithin
  outInside := h.outInside
  cursorWithin := hc.1
  tagTail := hc.2
  offsetInRange := fun hne => absurd rfl hne
  noFault := fun hne => absurd rfl hne
  faultRecorded := fun _ => ⟨nofun, hcur⟩
  endOfData := fun hf => hc.1.antisymm (hend (Option.some.inj hf))
  startFresh := nofun
  outNonempty := nofun
  offsetFits := ho
  infoFits := hinfo

theorem inv_failed {i : Instr} (hc : CursorOk s.input c) (hs : selects i (s.withCursor c) = true)
    (hfail : Failed i (s.withCursor c) t) : Inv t := by
  obtain ⟨hw, -, -⟩ := (selects_iff i _).1 hs
  have hv : (s.withCursor c).cfg.valid = true := ((configured_iff s).1 h.config).1
  have hcur : i.label ≠ .none := by cases i <;> nofun
  have hoff := offsetAtChecks_fits hv hw h.offsetFits
  cases hfail with
  | invalid o copies eq => exact eq ▸ inv_raise h hc nofun hcur hoff (copyOffset_fits hv hw h.offsetFits copies)
  | full eq => exact eq ▸ inv_raise h hc nofun hcur hoff (appendedBytes_fits hv hw)

/-- A completed operation leaves some output: FIRST appends its byte, and there is output before any other. -/
theorem Completed.outLen_pos {i : Instr} (hcomp : Completed i (s.withCursor c) t)
    (hs : selects i (s.withCursor c) = true) : 1 ≤ t.outLen := by
  obtain ⟨-, hin, hsel⟩ := (selects_iff i _).1 hs
  have hlen := hcomp.extended.outLen
  obtain hfsm | hfsm := (inSession_iff _).1 hin
  · rw [hfsm] at hsel
    obtain ⟨l, rfl⟩ := selected_first hsel
    exact hlen ▸ Nat.le_add_left 1 _
  · exact hlen ▸ (h.outNonempty (.inl hfsm)).trans (Nat.le_add_right _ _)

theorem inv_completed {i : Instr} (hc : CursorOk s.input c) (hsame : SameStream (s.withCursor c) t)
    (hs : selects i (s.withCursor c) = true) (hcomp : Completed i (s.withCursor c) t) : Inv t := by
  obtain ⟨hw, hin, -⟩ := (selects_iff i _).1 hs
  have hv : (s.withCursor c).cfg.valid = true := ((configured_iff s).1 h.config).1
  have hx := hcomp.extended
  have hfsm : t.fsm = .running ∨ t.fsm = .terminated := (hcomp.fsm_cases hs).imp And.right And.right
  have hnf : s.fsm ≠ .failed := by
    obtain e | e := (inSession_iff _).1 hin <;> exact fun e' => absurd (e.symm.trans e') nofun
  obtain ⟨hcode, hop, hinfo⟩ := h.noFault hnf
  have hcode' : t.errCode = none := hx.errCode.trans hcode
  have hlen : s.outLen ≤ t.outLen := hx.outLen ▸ Nat.le_add_right _ _
  have hwithin : ∀ cap, s.cfg.outCap = some cap → t.outLen ≤ cap := fun cap hcap =>
    hcomp.room cap hcap (h.outWithin cap hcap)
  exact {
    config := hsame.configured.trans h.config
    outCanonical := hx.canonical h.outCanonical
    outWritten := hx.written h.outWritten
    outWithin := by rw [hsame.cfg]; exact hwithin
    outInside := fun cap a hcap hread => by
      rw [hsame.cfg] at hcap
      by_cases ha : a < t.outLen
      · exact ha.trans_le (hwithin cap hcap)
      · rw [hx.stays a (.inr (hx.outLen ▸ Nat.not_lt.1 ha))] at hread
        exact h.outInside cap a hcap hread
    cursorWithin := by rw [hsame.inPos, hsame.input]; exact hc.1
    tagTail := by rw [hsame.tag, hsame.bitCount]; exact hc.2
    offsetInRange := fun _ => by
      rw [hcomp.lastOffset]
      obtain e | e := offsetAfter_cases (s.withCursor c) i
      · exact e ▸ (h.offsetInRange hnf).trans hlen
      · exact (hcomp.bound _ e).2.trans hlen
    noFault := fun _ => ⟨hcode', hx.errOp.trans hop, hx.errInfo.trans hinfo⟩
    faultRecorded := fun e => absurd e (hcomp.not_failed hs)
    endOfData := fun e => absurd (hcode'.symm.trans e) nofun
    startFresh := by obtain e | e := hfsm <;> rw [e] <;> nofun
    outNonempty := fun _ => hcomp.outLen_pos h hs
    offsetFits := by
      rw [hcomp.lastOffset, hsame.cfg]
      obtain e | e := offsetAfter_cases (s.withCursor c) i
      · exact e ▸ h.offsetFits
      · exact copyOffset_fits hv hw h.offsetFits e
    infoFits := by rw [hsame.cfg, hx.errInfo]; exact h.infoFits }

end Step

/-- Settles O51: the reads keep the cursor's rules (`Reads.cursorOk`), and what the step does then is a raise of the
reads (`inv_raise`), a failed operation (`inv_failed`) or a completed one (`inv_completed`). -/
theorem stepKeepsTheInvariant : Obligations.StepKeepsTheInvariant := by
  intro s t h hstep
  obtain ⟨i, c, hf, hexec, hs, hdone⟩ | ⟨f, cur, c, hf, rfl⟩ := step_outcome hstep
  · have hc := (decode_reads hf).cursorOk h.cursorOk
    exact hdone.elim (inv_completed h hc (exec_sameStream hexec) hs) (inv_failed h hc hs)
  · obtain ⟨hcur, ⟨bits, raws, hreads⟩, hend⟩ := decode_raised hf
    exact inv_raise h (hreads.cursorOk h.cursorOk) hend hcur h.offsetFits fun n _ => Nat.two_pow_pos _

/-! ## The invariant under the host's moves -/

/-- A state whose registers are at their session-start values meets the invariant, whatever OUT still holds within
OUT_CAP. -/
theorem inv_of_fresh {s : State} (hc : configured s = true) (hfsm : s.fsm = .idle ∨ s.fsm = .start) (hfresh : Fresh s)
    (herr : s.errCode = none ∧ s.errOp = .none ∧ s.errInfo = 0) (hout : s.out.wf = true)
    (hinside : ∀ cap a, s.cfg.outCap = some cap → (s.out.read a).isSome = true → a < cap) : Inv s := by
  obtain ⟨hpos, hbits, htag, hpair, hlast, hlen⟩ := hfresh
  have hnot : s.fsm ≠ .failed ∧ s.fsm ≠ .running ∧ s.fsm ≠ .terminated := by
    obtain e | e := hfsm <;> simp [e]
  obtain ⟨hnf, hnr, hnt⟩ := hnot
  have hzero : ∀ n, 0 < 2 ^ (n + 8) := fun _ => Nat.two_pow_pos _
  exact {
    config := hc
    outCanonical := hout
    outWritten := fun a ha => absurd (hlen ▸ ha) (Nat.not_lt_zero a)
    outWithin := fun cap _ => hlen ▸ Nat.zero_le cap
    outInside := hinside
    cursorWithin := hpos ▸ Nat.zero_le _
    tagTail := by rw [htag]; exact Nat.zero_mod _
    offsetInRange := fun _ => by rw [hlast]; exact Nat.zero_le _
    noFault := fun _ => herr
    faultRecorded := fun e => absurd e hnf
    endOfData := fun e => absurd (herr.1.symm.trans e) nofun
    startFresh := fun _ => ⟨hpos, hbits, htag, hpair, hlast, hlen⟩
    outNonempty := fun e => (e.elim hnr hnt).elim
    offsetFits := fun n _ => hlast ▸ hzero n
    infoFits := fun n _ => herr.2.2 ▸ hzero n }

/-- The draws are no part of the invariant. -/
theorem Inv.setDraws {s : State} (h : Inv s) (draws : Nat) : Inv { s with draws := draws } :=
  { h with config := h.config }

theorem inv_resetOf {cfg : Config} (hv : cfg.valid = true) : Inv (State.resetOf cfg) := by
  have hadm : cfg.admitsInput 0 = true := (Config.admitsInput_iff cfg 0).2 fun w _ => Nat.two_pow_pos w
  exact inv_of_fresh ((configured_iff _).2 ⟨hv, hadm⟩) (.inl rfl) ⟨rfl, rfl, rfl, rfl, rfl, rfl⟩ ⟨rfl, rfl, rfl⟩
    Memory.wf_reset nofun

/-- Settles O50: `inv_resetOf`, for any legal configuration and for the reference one. -/
theorem invariantHoldsAtReset : Obligations.InvariantHoldsAtReset :=
  ⟨fun _ hv => inv_resetOf hv, inv_resetOf rfl⟩

/-- A host read changes nothing but the count of draws (R25). -/
theorem readRegister_state (index : Nat) (s : State) :
    (readRegister index s).2 = s ∨ (readRegister index s).2 = s.drawn := by
  have hquiet : ∀ value width, (quietRead s value width).2 = s ∨ (quietRead s value width).2 = s.drawn := by
    intro value width
    unfold quietRead
    split
    · exact .inr rfl
    · exact .inl rfl
  unfold readRegister
  split
  · exact .inl rfl
  · exact .inl rfl
  · exact hquiet _ _
  · exact hquiet _ _
  · exact hquiet _ _
  · exact hquiet _ _
  · exact hquiet _ _
  · exact .inr rfl

theorem readOut_state (a : Nat) (s : State) : (readOut a s).2 = s ∨ (readOut a s).2 = s.drawn := by
  unfold readOut
  split
  · split
    · exact .inl rfl
    · exact .inr rfl
  · exact .inr rfl

theorem inv_startMove {s t : State} {input : List Byte} (h : Inv s) (ht : startMove input s = .next t) : Inv t := by
  obtain ⟨rfl, hc⟩ := startMove_next ht
  exact inv_of_fresh hc (.inr rfl) ⟨rfl, rfl, rfl, rfl, rfl, rfl⟩ ⟨rfl, rfl, rfl⟩ h.outCanonical h.outInside

/-- Settles O52: reset and start answer a fresh state, and every other host move changes at most the draws. -/
theorem hostMovesKeepTheInvariant : Obligations.HostMovesKeepTheInvariant := by
  intro m s t hm h hmove
  obtain ⟨hv, -⟩ := (configured_iff s).1 h.config
  simp only [move, hv, if_true] at hmove
  have hdraw : ∀ u : State, u = s ∨ u = s.drawn → Inv u := by
    rintro u (rfl | rfl)
    · exact h
    · exact h.setDraws _
  cases m with
  | step => exact absurd rfl hm
  | reset =>
    cases hmove
    exact (inv_resetOf hv).setDraws _
  | write index value input =>
    simp only [writeRegister] at hmove
    split at hmove
    · exact inv_startMove h hmove
    · cases hmove
      exact h
  | readRegister index =>
    cases hmove
    exact hdraw _ (readRegister_state index s)
  | readOut a =>
    cases hmove
    exact hdraw _ (readOut_state a s)

/-- A move that answers a next state had legal parameters, and the step is `step`. -/
theorem move_step_next {s t : State} (h : move .step s = .next t) : step s = .next t := by
  unfold move at h
  split at h
  · exact h
  · cases h

/-- Settles O53: the invariant holds at reset, and every step and every host move keeps it. -/
theorem reachableStatesMeetTheInvariant : Obligations.ReachableStatesMeetTheInvariant := by
  intro cfg s hv hs
  induction hs with
  | reset => exact inv_resetOf hv
  | move s t m _ hmove ih =>
    by_cases hm : m = .step
    · subst hm
      exact stepKeepsTheInvariant s t ih (move_step_next hmove)
    · exact hostMovesKeepTheInvariant m s t hm ih hmove

end Sys2Proof.Machine

namespace Sys2Proof

/-! ## What depends on the parameters -/

section Params

variable {cfg cfg' : Config} (h : cfg.numBits = cfg'.numBits)
include h

theorem gammaFull_congr (acc : Nat) : gammaFull cfg acc = gammaFull cfg' acc := by
  unfold gammaFull
  rw [h]

theorem gammaLoop_congr (input : List Byte) (fuel acc : Nat) (c : Cursor) :
    gammaLoop cfg input fuel acc c = gammaLoop cfg' input fuel acc c := by
  induction fuel generalizing acc c with
  | zero => rfl
  | succ fuel ih => simp only [gammaLoop, gammaFull_congr h, ih]

theorem readGamma_congr (input : List Byte) (c : Cursor) : readGamma cfg input c = readGamma cfg' input c := by
  simp only [readGamma, gammaLoop_congr h]

/-- The decoder looks at no parameter but NUM_BITS. -/
theorem decode_congr (isFirst pair : Bool) (input : List Byte) (c : Cursor) :
    decode cfg isFirst pair input c = decode cfg' isFirst pair input c := by
  simp only [decode, decodeOpcode, decodeBlock, readGamma_congr h]

theorem Instr.wf_congr (i : Instr) : i.wf cfg = i.wf cfg' := by
  have hgamma : ∀ v, gammaOk cfg v = gammaOk cfg' v := fun v => by simp only [gammaOk, Config.fitsNum, h]
  cases i with
  | blkReuse g2 => exact hgamma g2
  | blk g1 lo g2 => exact congrArg₂ (· && ·) (hgamma g1) (hgamma g2)
  | first l | lit l | shb sv | endStream sv | sbZero | sbCopy d => rfl

end Params

end Sys2Proof

namespace Sys2Proof.Machine

/-! ## Two states of one session -/

theorem hasRoom_congr {cfg cfg' : Config} (h : cfg.outCap = cfg'.outCap) (outLen n : Nat) :
    cfg.hasRoom outLen n = cfg'.hasRoom outLen n := by
  unfold Config.hasRoom
  rw [h]

/-- Two flows at one place, in states of one session. -/
inductive FlowsAgree : Flow → Flow → Prop
  | go {s t : State} (h : SameSession s t) : FlowsAgree (.go s) (.go t)
  | ended {s t : State} (h : SameSession s t) : FlowsAgree (.ended s) (.ended t)
  | stopped (f : Fault) : FlowsAgree (.stopped f) (.stopped f)

theorem FlowsAgree.andThen {x y : Flow} {k k' : State → Flow} (h : FlowsAgree x y)
    (hk : ∀ s t, SameSession s t → FlowsAgree (k s) (k' t)) : FlowsAgree (x.andThen k) (y.andThen k') := by
  cases h with
  | go h => exact hk _ _ h
  | ended h => exact .ended h
  | stopped f => exact .stopped f

theorem FlowsAgree.outcome {x y : Flow} (h : FlowsAgree x y) : OutcomesAgree SameSession x.outcome y.outcome := by
  cases h with
  | go h | ended h => exact h
  | stopped f => rfl

namespace SameSession

variable {s t : State} (h : SameSession s t)
include h

theorem withCursor (c : Cursor) : SameSession (s.withCursor c) (t.withCursor c) :=
  { h with inPos := rfl, bitCount := rfl, tag := rfl }

theorem setPair (b : Bool) : SameSession (s.setPair b) (t.setPair b) := { h with pair := rfl }

theorem setLastOffset (o : Nat) : SameSession (s.setLastOffset o) (t.setLastOffset o) := { h with lastOffset := rfl }

theorem setFsm (f : Fsm) : SameSession (s.setFsm f) (t.setFsm f) := { h with fsm := rfl }

theorem raise (f : FaultCode) (cur : OpLabel) (info : Nat) : SameSession (s.raise f cur info) (t.raise f cur info) :=
  { h with fsm := rfl, errCode := rfl, errOp := rfl, errInfo := rfl }

theorem putByte (v : Byte) : SameSession (s.putByte v) (t.putByte v) :=
  { h with
    outLen := congrArg (· + 1) h.outLen
    out := fun a ha => by
      rw [State.putByte_outLen] at ha
      simp only [State.putByte_out, Memory.read_write, ← h.outLen]
      split
      · rfl
      · exact h.out a (by omega) }

theorem append_agree (cur : OpLabel) (v : Byte) : FlowsAgree (append cur v s) (append cur v t) := by
  unfold append
  rw [← h.outLen, ← hasRoom_congr h.outCap]
  split
  · exact .go (h.putByte v)
  · exact .ended (h.raise ..)

/-- The loop reads below `out_len` only, where the two OUTs agree. -/
theorem copyLoop_agree {offset : Nat} (n : Nat) (ho : 1 ≤ offset ∧ offset ≤ s.outLen) :
    FlowsAgree (copyLoop offset n s) (copyLoop offset n t) := by
  induction n generalizing s t with
  | zero => exact .go h
  | succ n ih =>
    simp only [copyLoop]
    rw [← h.outLen, ← h.out (s.outLen - offset) (by omega)]
    split
    · exact .stopped _
    · exact ih (h.putByte _) (by rw [State.putByte_outLen]; omega)

theorem backCopy_agree (cur : OpLabel) (offset length : Nat) :
    FlowsAgree (backCopy cur offset length s) (backCopy cur offset length t) := by
  unfold backCopy
  rw [← h.outLen, ← hasRoom_congr h.outCap]
  split
  · exact .ended (h.raise ..)
  next hb =>
    split
    · exact h.copyLoop_agree length (by omega)
    · exact .ended (h.raise ..)

theorem selects_eq (i : Instr) : selects i s = selects i t := by
  unfold selects inSession
  rw [Instr.wf_congr h.numBits, h.fsm, h.pair]

theorem fetch_eq : fetch s = fetch t := by
  unfold fetch State.cursor
  rw [decode_congr h.numBits, h.fsm, h.pair, h.input, h.inPos, h.bitCount, h.tag]

theorem operation_agree (i : Instr) {body body' : State → Flow} (hs : configured s = true) (ht : configured t = true)
    (hbody : FlowsAgree (body s) (body' t)) :
    OutcomesAgree SameSession (operation i s body) (operation i t body') := by
  unfold operation
  rw [if_pos hs, if_pos ht, ← h.selects_eq]
  split
  · exact hbody.outcome
  · rfl

theorem exec_agree (i : Instr) (hs : configured s = true) (ht : configured t = true) :
    OutcomesAgree SameSession (exec i s) (exec i t) := by
  cases i <;>
    simp only [exec, execFirst, execLit, execBlkReuse, execBlk, execShb, execEndStream, execSbZero, execSbCopy] <;>
    refine h.operation_agree _ hs ht ?_
  case first l => exact (h.append_agree _ l).andThen fun _ _ h => .go ((h.setPair true).setFsm .running)
  case lit l => exact (h.append_agree _ l).andThen fun _ _ h => .go (h.setPair true)
  case blkReuse g2 =>
    refine .andThen ?_ fun _ _ h => .go (h.setPair false)
    rw [← h.lastOffset]
    exact (h.setLastOffset _).backCopy_agree ..
  case blk g1 lo g2 =>
    refine .andThen ?_ fun _ _ h => .go (h.setPair false)
    rw [← h.pair]
    exact (h.setLastOffset _).backCopy_agree ..
  case shb sv => exact (h.backCopy_agree ..).andThen fun _ _ h => .go ((h.setLastOffset _).setPair false)
  case endStream sv => exact .go (h.setFsm .terminated)
  case sbZero => exact (h.append_agree _ 0).andThen fun _ _ h => .go (h.setPair true)
  case sbCopy d => exact (h.backCopy_agree ..).andThen fun _ _ h => .go (h.setPair true)

theorem fire_agree (hs : configured s = true) (ht : configured t = true) :
    OutcomesAgree SameSession (fire s) (fire t) := by
  unfold fire
  rw [← h.fetch_eq]
  split
  · exact (h.withCursor _).exec_agree _ hs ht
  · exact (h.withCursor _).raise ..

end SameSession

/-- Settles O47: in a session both states fire (`SameSession.fire_agree`); outside one both stop alike. -/
theorem stepReadsOnlyTheSession : Obligations.StepReadsOnlyTheSession := by
  intro s t h hs ht
  unfold step sessionStep
  rw [if_pos hs, if_pos ht, ← h.fsm]
  cases s.fsm with
  | start | running => exact h.fire_agree hs ht
  | idle | terminated | failed => rfl

end Sys2Proof.Machine

namespace Sys2Proof.Machine

/-! ## The step -/

/-- Settles O16: `step_instr`, with the fetch and the cursor written out. -/
theorem stepRunsTheDecodedOperation : Obligations.StepRunsTheDecodedOperation :=
  fun s _ _ hc hs hf => step_instr hc ((inSession_iff s).2 hs) hf

/-- Settles O17: `step_raised` gives the state, and the lemmas on each opcode's reads its label and its faults. -/
theorem readFaultEndsTheStepInFailed : Obligations.ReadFaultEndsTheStepInFailed := by
  refine ⟨fun s _ _ _ hc hs hf => step_raised hc ((inSession_iff s).2 hs) hf, ?_⟩
  intro cfg pair input c c' f cur
  refine ⟨fun h => ?_, fun h => ?_, fun h => ?_, fun h => ?_, fun h => ?_⟩
  · exact (decodeFirst_raised h).imp_right And.left
  · exact (decodeLiteral_raised h).imp_right And.left
  · exact (decodeBlock_raised h).imp_right And.left
  · exact (decodeShort_raised h).imp_right And.left
  · exact (decodeSingle_raised h).imp_right And.left

/-! ## The host -/

/-- The two words of a reset state are those of `State.reset`, whose fields are all 0. -/
theorem words_resetMove (s : State) : statusWord (resetMove s) = 0 ∧ contextWord (resetMove s) = 0 := by
  have h : statusWord State.reset = 0 ∧ contextWord State.reset = 0 := by decide
  exact h

/-- The reset state is IDLE, where every register reads its value, and that value is 0 (vector RS1). -/
theorem readRegister_resetMove (s : State) {index : Nat} (h : index < 7) :
    readRegister index (resetMove s) = (0, resetMove s) := by
  obtain ⟨hstatus, hcontext⟩ := words_resetMove s
  match index, h with
  | 0, _ | 2, _ | 3, _ | 4, _ | 6, _ => rfl
  | 1, _ => exact congrArg (fun w : BitVec 11 => (w.toNat, resetMove s)) hstatus
  | 5, _ => exact congrArg (fun w : BitVec 16 => (w.toNat, resetMove s)) hcontext

/-- Settles O54: every field is one of `State.resetOf`, and `readRegister_resetMove` is what the host reads. -/
theorem resetClearsEveryRegister : Obligations.ResetClearsEveryRegister := by
  intro s
  exact ⟨_, rfl, rfl, ⟨rfl, rfl, rfl, rfl, rfl, rfl⟩, rfl, rfl, rfl, fun _ => rfl, rfl,
    fun _ => readRegister_resetMove s⟩

/-- A write of CTRL with bit 0 set is the start command (R23). -/
theorem writeRegister_start {value : Nat} (input : List Byte) (s : State) (h : value % 2 = 1) :
    writeRegister 0 value input s = startMove input s := if_pos ⟨rfl, h⟩

/-- Every other write has no effect (R22, R23). -/
theorem writeRegister_ignored {index value : Nat} (input : List Byte) (s : State) (h : ¬ (index = 0 ∧ value % 2 = 1)) :
    writeRegister index value input s = .next s := if_neg h

/-- Settles O56: the two cases of `writeRegister`. -/
theorem controlRegisterOnlyStarts : Obligations.ControlRegisterOnlyStarts := by
  intro s value input
  refine ⟨writeRegister_start input s, fun h => ?_, rfl, fun index h => ?_⟩
  · exact writeRegister_ignored input s fun ⟨_, h1⟩ => absurd (h.symm.trans h1) (by decide)
  · exact writeRegister_ignored input s fun ⟨h0, _⟩ => h h0

/-- The first step of a session on a non-empty input runs FIRST on its first byte (R76). -/
theorem fetch_sessionStart (s : State) (l : Byte) (rest : List Byte) :
    fetch (s.sessionStart (l :: rest)) = .instr (.first l) ⟨1, 0, 0⟩ := rfl

/-- Settles O55: `startMove` on legal parameters, by whether a session is in progress. -/
theorem startBeginsAFreshSession : Obligations.StartBeginsAFreshSession := by
  intro s input value hv hadm hvalue
  have hmove : writeRegister 0 value input s =
      if inSession s then .refused .startDuringSession else .next (s.sessionStart input) := by
    rw [writeRegister_start input s hvalue, startMove, hv, hadm]
    rfl
  refine ⟨fun hfsm => ?_, fun t l rest ht hinput => ?_, fun hfsm => ?_⟩
  · have hout : ¬ inSession s = true := by
      rw [inSession_iff]
      obtain e | e | e := hfsm <;> simp [e]
    rw [hmove, if_neg hout]
    rfl
  · subst hinput
    rw [writeRegister_start _ s hvalue] at ht
    obtain ⟨rfl, hc⟩ := startMove_next ht
    exact step_instr hc rfl (fetch_sessionStart s l rest)
  · rw [hmove, if_pos ((inSession_iff s).2 hfsm)]

/-- A field between two others is the slice at its place. -/
theorem extractLsb'_append_mid {n m k : Nat} (hi : BitVec n) (mid : BitVec m) (lo : BitVec k) :
    (hi ++ mid ++ lo).extractLsb' k m = mid := by
  rw [BitVec.extractLsb'_append_eq_of_le le_rfl, Nat.sub_self, BitVec.extractLsb'_append_eq_right]

/-- The fields of a word laid out as R24 says. -/
theorem statusFields (op err state : BitVec 3) :
    let w : BitVec 11 := op ++ (0 : BitVec 1) ++ err ++ (0 : BitVec 1) ++ state
    w.extractLsb' 0 3 = state ∧ w.getLsbD 3 = false ∧ w.extractLsb' 4 3 = err ∧ w.getLsbD 7 = false ∧
      w.extractLsb' 8 3 = op := by
  refine ⟨BitVec.extractLsb'_append_eq_right, ?_, ?_, ?_, ?_⟩
  · exact BitVec.getLsbD_append.trans BitVec.getLsbD_append
  · exact (BitVec.extractLsb'_append_eq_of_le (by decide)).trans (extractLsb'_append_mid ..)
  · exact BitVec.getLsbD_append.trans (BitVec.getLsbD_append.trans (BitVec.getLsbD_append.trans BitVec.getLsbD_append))
  · iterate 3 refine (BitVec.extractLsb'_append_eq_of_le (by decide)).trans ?_
    exact BitVec.extractLsb'_append_eq_left

/-- Settles O57: `statusFields` at the word of `statusWord`, whose numbers are those of `opNumber`, `errNumber` and
`Fsm.code`. -/
theorem statusShowsStateAndFault : Obligations.StatusShowsStateAndFault := by
  intro s
  obtain ⟨hstate, h3, herr, h7, hop⟩ := statusFields (opNumber s.errOp) (errNumber s.errCode) s.fsm.code
  refine ⟨statusWord s, rfl, hstate.trans ?_, h3, herr.trans ?_, h7, hop.trans ?_⟩
  · cases s.fsm <;> rfl
  · cases s.errCode with
    | none => rfl
    | some f => cases f <;> rfl
  · cases s.errOp <;> rfl

/-- The fields of a word laid out as R25 says of CONTEXT. -/
theorem contextFields (tag : Byte) (bits : BitVec 3) (pair : Bool) :
    let w : BitVec 16 := tag ++ (0 : BitVec 4) ++ bits ++ BitVec.ofBool pair
    w.getLsbD 0 = pair ∧ w.extractLsb' 1 3 = bits ∧ w.extractLsb' 4 4 = 0 ∧ w.extractLsb' 8 8 = tag := by
  refine ⟨?_, extractLsb'_append_mid .., ?_, ?_⟩
  · refine BitVec.getLsbD_append.trans ?_
    cases pair <;> rfl
  · exact (BitVec.extractLsb'_append_eq_of_le (by decide)).trans (extractLsb'_append_mid ..)
  · iterate 2 refine (BitVec.extractLsb'_append_eq_of_le (by decide)).trans ?_
    exact BitVec.extractLsb'_append_eq_left

/-- Settles O58: outside a session every register reads its value (`quietRead`), CONTEXT as `contextFields` says. -/
theorem statusRegistersAreExactOutsideASession : Obligations.StatusRegistersAreExactOutsideASession := by
  intro s
  refine ⟨fun hstart hrun => ?_, fun index => readRegister_state index s⟩
  have hquiet : ∀ value width, quietRead s value width = (value, s) := fun value width =>
    if_neg fun h => ((inSession_iff s).1 h).elim hstart hrun
  exact ⟨hquiet _ _, hquiet _ _, hquiet _ _, hquiet _ _, contextWord s, hquiet _ _, contextFields ..⟩

end Sys2Proof.Machine

namespace Sys2Proof.Machine

/-! ## The read port on OUT -/

/-- In TERMINATED the port shows the byte that stands below `out_len` (R36). -/
theorem readOut_exact {s : State} {i : Nat} {v : Byte} (hfsm : s.fsm = .terminated) (hi : i < s.outLen)
    (hv : s.out.read i = some v) : readOut i s = (v, s) := by
  rw [readOut, if_pos ⟨hfsm, hi⟩, hv]

/-- Outside TERMINATED, and at `out_len` and above, the read is a draw of 8 bits (R36). -/
theorem readOut_draw {s : State} {i : Nat} (h : ¬ (s.fsm = .terminated ∧ i < s.outLen)) :
    readOut i s = (BitVec.ofNat 8 (drawValue (some 8) s), s.drawn) := if_neg h

/-- Settles O59: `readOut_exact` below `out_len` in TERMINATED, `readOut_draw` in every other case. -/
theorem outPortIsExactInTerminated : Obligations.OutPortIsExactInTerminated := by
  intro s i
  refine ⟨fun v => readOut_exact, fun h => ?_⟩
  have hnot : ¬ (s.fsm = .terminated ∧ i < s.outLen) := fun ⟨hfsm, hi⟩ =>
    h.elim (fun hne => hne hfsm) (fun hle => absurd hi hle.not_gt)
  exact congrArg Prod.snd (readOut_draw hnot)

end Sys2Proof.Machine

/-! # Proofs of the encoding family (30_encoding.md)

The round trip of the encoder, the gamma number against the bits ahead of the cursor, what the decoder can yield and
what it never looks at, and the closed form of the copies. -/

namespace Sys2Proof

/-! ## The round trip -/

theorem encode_eq_assemble (i : Instr) : encode i = assemble [i] := by
  simp [encode, assemble]

/-- Settles O1: one operation is a stream of one, so it lies ahead of the first cursor (`ahead_assemble`) and is the one
decoded (`decode_ahead`). -/
theorem encodedOperationDecodesBack : Obligations.EncodedOperationDecodesBack := by
  intro cfg i isFirst pair tail hw hs
  rw [encode_eq_assemble]
  obtain ⟨c, hdec, hend⟩ := decode_ahead hw hs (ahead_assemble [i] tail)
  have hpos := inPos_of_ahead_nil hend
  rw [List.length_append] at hpos
  exact ⟨c, hdec, Nat.add_right_cancel hpos⟩

/-- Operations whose items lie ahead are decoded one after another, each in the context the one before it leaves. -/
theorem decodeMany_ahead {cfg : Config} {input tail : List Byte} (ops : List Instr) {isFirst pair : Bool} {c : Cursor}
    (hok : streamOk cfg isFirst pair ops = true) (h : Ahead input tail c (ops.flatMap items)) :
    decodeMany cfg input ops.length isFirst pair c = some ops := by
  induction ops generalizing isFirst pair c with
  | nil => rfl
  | cons i ops ih =>
    obtain ⟨⟨hw, hs⟩, hrest⟩ :
        (i.wf cfg = true ∧ i.selected isFirst pair = true) ∧ streamOk cfg false (i.pairAfter pair) ops = true := by
      simpa [streamOk] using hok
    obtain ⟨c', hdec, h'⟩ := decode_ahead hw hs h
    simp [decodeMany, hdec, ih hrest h']

/-- Settles O2: the whole stream lies ahead of the first cursor. -/
theorem assembledStreamDecodesBack : Obligations.AssembledStreamDecodesBack :=
  fun _ _ ops tail hok => decodeMany_ahead ops hok (ahead_assemble ops tail)

/-! ## The bits ahead of the cursor -/

open Machine (topBits upcomingBits)

/-- A tag with `n + 1` bits left gives its top bit, and the shifted tag holds the others. -/
theorem topBits_succ (n : Nat) (t : Byte) : topBits (n + 1) t = t.msb :: topBits n (t <<< 1) := by
  simp [topBits, List.range_succ_eq_map, BitVec.msb, BitVec.getMsbD_shiftLeft, Function.comp_def]

section Bits

variable {input : List Byte} {c c' : Cursor} {b : Bool}

/-- A bit read returns the first of the bits ahead and leaves the others ahead, whether or not it reloads. -/
theorem upcomingBits_of_readBit (h : readBit input c = .done b c') :
    upcomingBits input c = b :: upcomingBits input c' := by
  obtain ⟨-, -, e⟩ | ⟨v, hb, hv, -, e⟩ | ⟨hb, e⟩ := readBit_cases input c
  · cases e.symm.trans h
  · cases e.symm.trans h
    obtain ⟨hlt, hget⟩ := List.getElem?_eq_some_iff.1 hv
    have hempty : topBits c.bitCount.toNat c.tag = [] := by rw [hb]; rfl
    rw [upcomingBits, hempty, List.drop_eq_getElem_cons hlt, hget, List.flatMap_cons, topBits_succ]
    rfl
  · cases e.symm.trans h
    rw [upcomingBits, ← bitCount_pos hb, topBits_succ]
    rfl

/-- A bit ahead is what `ReadBit` returns. -/
theorem readBit_of_upcomingBits {bs : List Bool} (h : upcomingBits input c = b :: bs) :
    ∃ c', readBit input c = .done b c' ∧ upcomingBits input c' = bs := by
  cases hr : readBit input c with
  | done b' c' =>
    obtain ⟨rfl, rfl⟩ := List.cons.inj ((upcomingBits_of_readBit hr).symm.trans h)
    exact ⟨c', rfl, rfl⟩
  | raised f c' =>
    obtain ⟨hb, hle, -⟩ | ⟨v, -, -, -, e⟩ | ⟨-, e⟩ := readBit_cases input c
    · rw [upcomingBits, hb, List.drop_of_length_le hle] at h
      cases h
    · cases e.symm.trans hr
    · cases e.symm.trans hr

end Bits

/-! ## The gamma number and its code -/

/-- A fold of R57 undone: its last bit is bit `k` of `v`, and what it was folded on is the bits of `v` above it. -/
theorem testBit_of_fold {v k acc : Nat} {d : Bool} (h : v / 2 ^ k = acc * 2 + d.toNat) :
    v.testBit k = d ∧ v / 2 ^ (k + 1) = acc := by
  constructor
  · rw [Nat.testBit_eq_decide_div_mod_eq, h]
    cases d <;> simp
  · have hd := Bool.toNat_le d
    rw [Nat.pow_succ, ← Nat.div_div_eq_div_mul]
    omega

/-- The bits of `v` below its leading 1, from the bit `d` under it down, are its gamma code (R50). -/
theorem gammaCode_of_top {v k : Nat} {d : Bool} (h : v / 2 ^ k = 1 * 2 + d.toNat) :
    gammaCode v = d :: (k != 0) :: gammaPairs v k := by
  have hd := Bool.toNat_le d
  have hlog : Nat.log2 v = k + 1 := by
    have hlo : 2 * 2 ^ k ≤ v := (Nat.le_div_iff_mul_le (Nat.two_pow_pos k)).1 (by omega)
    have hhi : v < 4 * 2 ^ k := (Nat.div_lt_iff_lt_mul (Nat.two_pow_pos k)).1 (by omega)
    have hpos := Nat.two_pow_pos k
    rw [Nat.log2_eq_iff (by omega), Nat.pow_succ, Nat.pow_succ]
    omega
  rw [gammaCode_eq_pairs, hlog, gammaPairs_succ, (testBit_of_fold h).1]

/-- A value of 2 or more has a leading 1 with a bit under it. -/
theorem exists_top {v : Nat} (h : 2 ≤ v) : ∃ k d, v / 2 ^ k = 1 * 2 + Bool.toNat d := by
  obtain ⟨k, hk⟩ : ∃ k, Nat.log2 v = k + 1 := Nat.exists_eq_add_one.2 ((Nat.le_log2 (by omega)).2 h)
  have htop : v / 2 ^ (k + 1) = 1 := Nat.div_eq_of_lt_le (by simpa [hk] using Nat.log2_self_le (n := v) (by omega))
    (by simpa [hk, Nat.pow_succ, Nat.mul_comm] using Nat.lt_log2_self (n := v))
  exact ⟨k, v.testBit k, by rw [← shift_fold_testBit, htop]⟩

section Gamma

variable {cfg : Config} {input : List Byte} {c c' : Cursor} {v : Nat}

/-- The gamma loop that stands before the continuation bit of bit `k`, its accumulator the bits of `v` from `k` up,
returns `v` when the rest of the code of `v` is ahead (R57). -/
theorem gammaLoop_of_upcomingBits {rest : List Bool} (hf : cfg.fitsNum v = true) (hv : v ≠ 0) (k : Nat)
    (h : upcomingBits input c = (k != 0) :: gammaPairs v k ++ rest) :
    ∃ c', gammaLoop cfg input (bitsLeft input c) (v / 2 ^ k) c = .done v c' ∧ upcomingBits input c' = rest := by
  induction k generalizing c with
  | zero =>
    obtain ⟨c1, hr, h1⟩ := readBit_of_upcomingBits h
    exact ⟨c1, by rw [gammaLoop_unfold, hr]; simp, h1⟩
  | succ k ih =>
    rw [gammaPairs_succ] at h
    obtain ⟨c1, hr, h1⟩ := readBit_of_upcomingBits h
    obtain ⟨c2, hd, h2⟩ := readBit_of_upcomingBits h1
    obtain ⟨c3, e, h3⟩ := ih h2
    refine ⟨c3, ?_, h3⟩
    rw [gammaLoop_unfold, hr]
    simp [gammaFull_shift k hf hv, hd, shift_fold_testBit, e]

/-- What the gamma loop folded above its accumulator is what it read: the rest of the code of its result (R57). -/
theorem upcomingBits_of_gammaLoop {fuel acc : Nat} (h : gammaLoop cfg input fuel acc c = .done v c') :
    ∃ k, v / 2 ^ k = acc ∧ upcomingBits input c = (k != 0) :: gammaPairs v k ++ upcomingBits input c' := by
  induction fuel generalizing acc c with
  | zero => cases h
  | succ fuel ih =>
    obtain ⟨cont, c1, hr, h⟩ := Read.bind_eq_done h
    rw [upcomingBits_of_readBit hr]
    cases cont with
    | false =>
      cases h
      exact ⟨0, Nat.div_one v, rfl⟩
    | true =>
      rw [if_pos rfl] at h
      split at h
      · cases h
      · obtain ⟨d, c2, hd, h⟩ := Read.bind_eq_done h
        obtain ⟨k, hk, hbits⟩ := ih h
        obtain ⟨hbit, hacc⟩ := testBit_of_fold hk
        refine ⟨k + 1, hacc, ?_⟩
        rw [upcomingBits_of_readBit hd, hbits, gammaPairs_succ, hbit]
        rfl

/-- The overflow check of R57 keeps the accumulator within NUM_BITS. -/
theorem fitsNum_of_gammaLoop {fuel acc : Nat} (h : gammaLoop cfg input fuel acc c = .done v c') (ha : 1 ≤ acc)
    (hf : cfg.fitsNum acc = true) : cfg.fitsNum v = true := by
  induction fuel generalizing acc c with
  | zero => cases h
  | succ fuel ih =>
    obtain ⟨cont, c1, -, h⟩ := Read.bind_eq_done h
    split at h
    · split at h
      · cases h
      · next hfull =>
        obtain ⟨d, c2, -, h⟩ := Read.bind_eq_done h
        refine ih h (by omega) ((cfg.fitsNum_iff _).2 fun n hn => ?_)
        have hacc : acc < 2 ^ (n - 1) := by simpa [gammaFull, hn] using hfull
        have hn0 : n ≠ 0 := by rintro rfl; omega
        have hpow := Nat.two_pow_pred_mul_two (Nat.pos_of_ne_zero hn0)
        have hd := Bool.toNat_le d
        omega
    · cases h
      exact hf

/-- What `ReadGamma` read is the code of what it returns. -/
theorem upcomingBits_of_readGamma (h : readGamma cfg input c = .done v c') :
    2 ≤ v ∧ upcomingBits input c = gammaCode v ++ upcomingBits input c' := by
  obtain ⟨d, c1, hr, h⟩ := Read.bind_eq_done h
  obtain ⟨k, htop, hbits⟩ := upcomingBits_of_gammaLoop h
  have hle : v / 2 ^ k ≤ v := Nat.div_le_self ..
  refine ⟨by omega, ?_⟩
  rw [upcomingBits_of_readBit hr, hbits, gammaCode_of_top htop]
  rfl

/-- What `ReadGamma` returns is a gamma operand: R5 leaves room for the two bits it starts with. -/
theorem gammaOk_of_readGamma (hv : cfg.valid = true) (h : readGamma cfg input c = .done v c') :
    gammaOk cfg v = true := by
  refine (gammaOk_iff cfg v).2 ⟨(upcomingBits_of_readGamma h).1, ?_⟩
  obtain ⟨d, c1, -, h⟩ := Read.bind_eq_done h
  refine fitsNum_of_gammaLoop h (by omega) ((cfg.fitsNum_iff _).2 fun n hn => ?_)
  obtain ⟨-, hcap, hnum⟩ := cfg.valid_iff.1 hv
  obtain ⟨cap, ho, hle⟩ := hnum n hn
  have hpos := hcap cap ho
  have hd := Bool.toNat_le d
  omega

end Gamma

/-- Settles O10: the code's first bit starts the accumulator, and the loop folds the others
(`gammaLoop_of_upcomingBits`). -/
theorem gammaReadInvertsItsCode : Obligations.GammaReadInvertsItsCode := by
  intro cfg input c v rest h2 hf hbits
  refine ⟨Laws.EncodedSize.gammaCode_length v, ?_⟩
  obtain ⟨k, d, htop⟩ := exists_top h2
  rw [gammaCode_of_top htop] at hbits
  obtain ⟨c1, hr, h1⟩ := readBit_of_upcomingBits hbits
  rw [readGamma, hr, Read.bind_done, ← htop]
  exact gammaLoop_of_upcomingBits hf (by omega) k h1

/-- Settles O11: the bits are `upcomingBits_of_readGamma`, the range is `gammaOk_of_readGamma`. -/
theorem gammaReadConsumesTheCodeOfItsResult : Obligations.GammaReadConsumesTheCodeOfItsResult := by
  intro cfg input c c' v hv h
  obtain ⟨h2, hbits⟩ := upcomingBits_of_readGamma h
  obtain ⟨-, hf⟩ := (gammaOk_iff cfg v).1 (gammaOk_of_readGamma hv h)
  exact ⟨h2, hf, hbits⟩

end Sys2Proof

namespace Sys2Proof

/-! ## What the decoder can yield -/

section Range

variable {cfg : Config} {pair : Bool} {input : List Byte} {c c' : Cursor} {i : Instr}

/-- A field of `n` bits is a number below `2^n`, above the accumulator it starts with (R58). -/
theorem readFixed_lt {n acc v : Nat} (h : readFixed input n acc c = .done v c') : v < (acc + 1) * 2 ^ n := by
  induction n generalizing acc c with
  | zero =>
    cases h
    omega
  | succ n ih =>
    obtain ⟨b, c1, -, h⟩ := Read.bind_eq_done h
    have hb := Bool.toNat_le b
    calc v < (acc * 2 + b.toNat + 1) * 2 ^ n := ih h
      _ ≤ (acc + 1) * 2 * 2 ^ n := Nat.mul_le_mul_right _ (by omega)
      _ = (acc + 1) * 2 ^ (n + 1) := by ring

/-- The operand reads of an opcode yield operands in range, in the form `pair` selects. -/
theorem decodeOperands_sound {o : Opcode} (hv : cfg.valid = true)
    (h : decodeOperands cfg pair input o c = .instr i c') : i.wf cfg = true ∧ i.selected false pair = true := by
  cases o with
  | literal =>
    obtain ⟨l, c1, -, h⟩ := Read.under_eq_instr h
    cases h
    exact ⟨rfl, rfl⟩
  | block =>
    obtain ⟨g1, c1, hg1, h⟩ := Read.under_eq_instr h
    have hok1 := gammaOk_of_readGamma hv hg1
    split at h
    next hform =>
      obtain ⟨g2, c2, hg2, h⟩ := Read.under_eq_instr h
      cases h
      exact ⟨gammaOk_of_readGamma hv hg2, hform.2⟩
    next hform =>
      obtain ⟨lo, c2, -, h⟩ := Read.under_eq_instr h
      obtain ⟨g2, c3, hg2, h⟩ := Read.under_eq_instr h
      cases h
      have hok2 := gammaOk_of_readGamma hv hg2
      exact ⟨by simp [Instr.wf, hok1, hok2], by simpa [Instr.selected, imp_iff_not_or] using hform⟩
  | shortBlock =>
    obtain ⟨sv, c1, -, h⟩ := Read.under_eq_instr h
    split at h
    next hsv =>
      cases h
      exact ⟨decide_eq_true hsv, rfl⟩
    next hsv =>
      cases h
      exact ⟨decide_eq_true (by omega), rfl⟩
  | singleByte =>
    obtain ⟨d, c1, hd, h⟩ := Read.under_eq_instr h
    have hlt : d < 16 := by simpa using readFixed_lt hd
    split at h
    next =>
      cases h
      exact ⟨rfl, rfl⟩
    next hne =>
      cases h
      refine ⟨decide_eq_true fun h0 => hne ?_, rfl⟩
      have h0 : d % 2 ^ 4 = 0 := congrArg BitVec.toNat h0
      omega

/-- Settles O3: FIRST has no operand to check and no form to choose; an opcode's forms are `decodeOperands_sound`. -/
theorem decodedOperationIsInRangeAndSelected : Obligations.DecodedOperationIsInRangeAndSelected := by
  intro cfg isFirst pair input c c' i hv h
  cases isFirst with
  | true =>
    obtain ⟨l, rfl, -⟩ := decodeFirst_instr h
    exact ⟨rfl, rfl⟩
  | false =>
    have h : decodeOpcode cfg pair input c = .instr i c' := h
    rw [decodeOpcode_eq] at h
    obtain ⟨n, c1, -, h⟩ := Read.under_eq_instr h
    exact decodeOperands_sound hv h

end Range

/-- Settles O15: the test of `decodeBlock` on `G1` and `pair`, true in the first clause and false in the second. -/
theorem pairChoosesTheFormOfBlock : Obligations.PairChoosesTheFormOfBlock := by
  intro cfg input c c1 g1 hg1
  refine ⟨fun g2 c2 h2 hg2 => ?_, fun pair lo c2 g2 c3 hform hlo hg2 => ?_⟩
  · rw [decodeBlock, hg1, Read.under_done, if_pos ⟨h2, rfl⟩, hg2, Read.under_done]
  · rw [decodeBlock, hg1, Read.under_done, if_neg hform, hlo, Read.under_done, hg2, Read.under_done]

/-- Settles O6: each word is short enough to be decoded by evaluation. -/
theorem spelledWordsDecodeToTheirOperations : Obligations.SpelledWordsDecodeToTheirOperations := by
  unfold Obligations.SpelledWordsDecodeToTheirOperations
  decide

/-! ## Input not read -/

/-- Read from `c`: where `r` returns, it has not moved the place back, and `r'` returns the same if `r` stayed within
the first `n` bytes. -/
def Read.AgreesWithin {α : Type} (n : Nat) (c : Cursor) (r r' : Read α) : Prop :=
  ∀ v c', r = .done v c' → c.inPos ≤ c'.inPos ∧ (c'.inPos ≤ n → r' = .done v c')

/-- The same of two decodings. -/
def Decoded.AgreesWithin (n : Nat) (c : Cursor) (d d' : Decoded) : Prop :=
  ∀ i c', d = .instr i c' → c.inPos ≤ c'.inPos ∧ (c'.inPos ≤ n → d' = .instr i c')

section Compose

variable {α β : Type} {n : Nat} {c : Cursor}

theorem Read.AgreesWithin.done (v : α) : Read.AgreesWithin n c (.done v c) (.done v c) := by
  rintro w c' ⟨⟩
  exact ⟨le_rfl, fun _ => rfl⟩

theorem Decoded.AgreesWithin.instr (i : Instr) : Decoded.AgreesWithin n c (.instr i c) (.instr i c) := by
  rintro j c' ⟨⟩
  exact ⟨le_rfl, fun _ => rfl⟩

theorem Read.AgreesWithin.bind {r r' : Read α} {k k' : α → Cursor → Read β} (h : Read.AgreesWithin n c r r')
    (hk : ∀ v c1, Read.AgreesWithin n c1 (k v c1) (k' v c1)) : Read.AgreesWithin n c (r.bind k) (r'.bind k') := by
  intro w c' hdone
  obtain ⟨v, c1, hr, hdone⟩ := Read.bind_eq_done hdone
  obtain ⟨hle, hsame⟩ := h v c1 hr
  obtain ⟨hle', hsame'⟩ := hk v c1 w c' hdone
  exact ⟨hle.trans hle', fun hn => by rw [hsame (hle'.trans hn), Read.bind_done, hsame' hn]⟩

theorem Read.AgreesWithin.under {cur : OpLabel} {r r' : Read α} {k k' : α → Cursor → Decoded}
    (h : Read.AgreesWithin n c r r') (hk : ∀ v c1, Decoded.AgreesWithin n c1 (k v c1) (k' v c1)) :
    Decoded.AgreesWithin n c (r.under cur k) (r'.under cur k') := by
  intro i c' hdone
  obtain ⟨v, c1, hr, hdone⟩ := Read.under_eq_instr hdone
  obtain ⟨hle, hsame⟩ := h v c1 hr
  obtain ⟨hle', hsame'⟩ := hk v c1 i c' hdone
  exact ⟨hle.trans hle', fun hn => by rw [hsame (hle'.trans hn), Read.under_done, hsame' hn]⟩

end Compose

section Unread

variable (cfg : Config) (pair : Bool) {input input' : List Byte} {n : Nat} (h : input'.take n = input.take n)
include h

theorem readByte_agrees (c : Cursor) : Read.AgreesWithin n c (readByte input c) (readByte input' c) := by
  intro v c' hdone
  obtain ⟨-, e⟩ | ⟨w, hw, -, e⟩ := inByte_cases input c
  · cases e.symm.trans hdone
  · obtain ⟨rfl, rfl⟩ : w = v ∧ _ = c' := Read.done.inj (e.symm.trans hdone)
    refine ⟨Nat.le_succ _, fun hn => ?_⟩
    have hw' : input'[c.inPos]? = some w := by
      rw [← List.getElem?_take_of_lt hn, h, List.getElem?_take_of_lt hn, hw]
    rw [readByte, inByte, hw']

theorem readBit_agrees (c : Cursor) : Read.AgreesWithin n c (readBit input c) (readBit input' c) := by
  unfold readBit
  split
  · exact (readByte_agrees h c).bind fun v c1 => .done _
  · exact .done _

theorem readFixed_agrees (m acc : Nat) (c : Cursor) :
    Read.AgreesWithin n c (readFixed input m acc c) (readFixed input' m acc c) := by
  induction m generalizing acc c with
  | zero => exact .done acc
  | succ m ih => exact (readBit_agrees h c).bind fun b c1 => ih _ c1

theorem unaryLoop_agrees (set : Bool) (left count : Nat) (c : Cursor) :
    Read.AgreesWithin n c (unaryLoop input set left count c) (unaryLoop input' set left count c) := by
  induction left generalizing count c with
  | zero => exact .done count
  | succ left ih =>
    refine (readBit_agrees h c).bind fun b c1 => ?_
    split
    · exact ih _ c1
    · exact .done count

theorem gammaLoop_agrees (fuel acc : Nat) (c : Cursor) :
    Read.AgreesWithin n c (gammaLoop cfg input fuel acc c) (gammaLoop cfg input' fuel acc c) := by
  induction fuel generalizing acc c with
  | zero => nofun
  | succ fuel ih =>
    refine (readBit_agrees h c).bind fun cont c1 => ?_
    split
    · split
      · nofun
      · exact (readBit_agrees h c1).bind fun d c2 => ih _ c2
    · exact .done acc

/-- Fuel enough for either input lets the two loops run on the same. -/
theorem readGamma_agrees (c : Cursor) : Read.AgreesWithin n c (readGamma cfg input c) (readGamma cfg input' c) := by
  refine (readBit_agrees h c).bind fun d c1 => ?_
  rw [← gammaLoop_fuel cfg input _ _ c1 (le_max_left _ (bitsLeft input' c1)),
    ← gammaLoop_fuel cfg input' _ _ c1 (le_max_right (bitsLeft input c1) _)]
  exact gammaLoop_agrees cfg h _ _ c1

theorem decodeOperands_agrees (o : Opcode) (c : Cursor) :
    Decoded.AgreesWithin n c (decodeOperands cfg pair input o c) (decodeOperands cfg pair input' o c) := by
  cases o with
  | literal => exact (readByte_agrees h c).under fun l c1 => .instr _
  | block =>
    refine (readGamma_agrees cfg h c).under fun g1 c1 => ?_
    split
    · exact (readGamma_agrees cfg h c1).under fun g2 c2 => .instr _
    · exact (readByte_agrees h c1).under fun lo c2 => (readGamma_agrees cfg h c2).under fun g2 c3 => .instr _
  | shortBlock =>
    refine (readByte_agrees h c).under fun sv c1 => ?_
    split <;> exact .instr _
  | singleByte =>
    refine (readFixed_agrees h 4 0 c).under fun d c1 => ?_
    split <;> exact .instr _

theorem decode_agrees (isFirst : Bool) (c : Cursor) :
    Decoded.AgreesWithin n c (decode cfg isFirst pair input c) (decode cfg isFirst pair input' c) := by
  cases isFirst with
  | true => exact (readByte_agrees h c).under fun l c1 => .instr _
  | false =>
    show Decoded.AgreesWithin n c (decodeOpcode cfg pair input c) (decodeOpcode cfg pair input' c)
    rw [decodeOpcode_eq, decodeOpcode_eq]
    exact (unaryLoop_agrees h true 3 0 c).under fun k c1 => decodeOperands_agrees cfg pair h _ c1

end Unread

/-- Settles O14: the operation stayed within the bytes before the cursor it left, where the two inputs agree. -/
theorem unreadInputHasNoInfluence : Obligations.UnreadInputHasNoInfluence :=
  fun cfg isFirst pair _ _ c c' i _ hdec h => (decode_agrees cfg pair h isFirst c i c' hdec).2 le_rfl

end Sys2Proof

namespace Sys2Proof.Machine

/-! ## The guard and the step -/

/-- Settles O20: each disjunct denies one clause of `selects_iff`, and every arm of `exec` asks for `selects` first
(`exec_operation`). -/
theorem unselectedFormIsRefused : Obligations.UnselectedFormIsRefused := by
  intro i s hc hbad
  have hs : selects i s = false := by
    rw [Bool.eq_false_iff, ne_eq, selects_iff, inSession_iff]
    rintro ⟨hw, hin, hsel⟩
    obtain h | ⟨hstart, hrun⟩ | h := hbad
    · cases h.symm.trans hw
    · exact hin.elim hstart hrun
    · cases h.symm.trans hsel
  obtain ⟨body, e⟩ := exec_operation i s
  rw [e, operation_not_selected body hc hs]

/-- Settles O21: a raise of the reads is a next state (`step_raised`); a decoded operation is one its state selects (O3),
and a selected meaning completes over the bytes written (`exec_completes`). -/
theorem everySessionStepCompletes : Obligations.EverySessionStepCompletes := by
  intro s h hfsm
  have hin := (inSession_iff s).2 hfsm
  cases hf : fetch s with
  | instr i c =>
    obtain ⟨hvalid, -⟩ := (configured_iff s).1 h.config
    obtain ⟨hw, hsel⟩ := decodedOperationIsInRangeAndSelected _ _ _ _ _ _ _ hvalid hf
    rw [step_instr h.config hin hf]
    exact exec_completes h.config ((selects_iff i (s.withCursor c)).2 ⟨hw, hin, hsel⟩) h.outWritten
  | raised f cur c => exact ⟨_, step_raised h.config hin hf⟩

/-- In RUNNING a form is selected by its operands and `pair` alone. -/
theorem selects_running {i : Instr} {s : State} (hfsm : s.fsm = .running) (hw : i.wf s.cfg = true)
    (hsel : i.selected false s.pair = true) : selects i s = true :=
  (selects_iff i s).2 ⟨hw, (inSession_iff s).2 (.inr hfsm), by rw [hfsm]; exact hsel⟩

/-! ## The copies -/

/-- Each byte the loop of R73 writes is a source for the ones after it, so the bytes it writes repeat with period
`offset` (R74). -/
theorem copyLoop_closed_form {offset : Nat} (n : Nat) {s t : State} (ho : 1 ≤ offset) (hle : offset ≤ s.outLen)
    (h : copyLoop offset n s = .go t) :
    ∀ i < n, t.out.read (s.outLen + i) = s.out.read (s.outLen - offset + i % offset) := by
  induction n generalizing s with
  | zero => exact fun i hi => absurd hi (Nat.not_lt_zero i)
  | succ n ih =>
    simp only [copyLoop] at h
    split at h
    · cases h
    next v hv =>
      have hread : ∀ a, (s.putByte v).out.read a = if a = s.outLen then some v else s.out.read a :=
        fun a => Memory.read_write ..
      obtain ⟨-, hstays, -⟩ := copyLoop_go h
      rintro (_ | i) hi
      · rw [Nat.add_zero, hstays _ (.inl (Nat.lt_succ_self _)), hread, if_pos rfl, Nat.zero_mod, Nat.add_zero, hv]
      · have hi' := ih (Nat.le_succ_of_le hle) h i (Nat.lt_of_succ_lt_succ hi)
        rw [State.putByte_outLen, hread, Nat.add_assoc, Nat.add_comm 1 i] at hi'
        rw [hi', ← Nat.mod_add_mod]
        have hmod := Nat.mod_lt i ho
        by_cases hwrap : i % offset + 1 = offset
        · rw [if_pos (by omega), hwrap, Nat.mod_self, Nat.add_zero, hv]
        · rw [if_neg (by omega), Nat.mod_eq_of_lt (show i % offset + 1 < offset by omega)]
          congr 1
          omega

section BackCopy

variable {cur : OpLabel} {offset length : Nat} {s : State} (ho : 1 ≤ offset) (hle : offset ≤ s.outLen)
  (hroom : ∀ cap, s.cfg.outCap = some cap → s.outLen + length ≤ cap)
include ho hle hroom

/-- A copy that passes both checks is its loop (R72, R73). -/
theorem backCopy_eq_copyLoop : backCopy cur offset length s = copyLoop offset length s := by
  rw [backCopy, if_neg (by omega), if_pos ((hasRoom_iff ..).2 hroom)]

/-- Such a copy runs to its end and makes the OUT of R74, with all other state as it was. -/
theorem backCopy_copied (hw : Written s) :
    ∃ u, backCopy cur offset length s = .go u ∧ Copied s u offset length ∧
      u = { s with out := u.out, outLen := u.outLen } := by
  rw [backCopy_eq_copyLoop ho hle hroom]
  obtain ⟨u, hu⟩ := copyLoop_completes length ho hle hw
  obtain ⟨hframe, hstays, -⟩ := copyLoop_go hu
  have hlen : u.outLen = s.outLen + length := by rw [hframe]
  exact ⟨u, hu, ⟨hlen, copyLoop_closed_form length ho hle hu, hstays⟩, by rw [hlen, ← hframe]⟩

end BackCopy

/-- Settles O28: `backCopy_copied` at `last_offset`; the write of `last_offset` before it changes nothing. -/
theorem blkReuseCopiesAtTheLastOffset : Obligations.BlkReuseCopiesAtTheLastOffset := by
  intro g2 s hc hw hfsm hpair h2 hf ho hle hroom
  have hs : selects (.blkReuse g2) s = true := selects_running hfsm ((gammaOk_iff ..).2 ⟨h2, hf⟩) hpair
  obtain ⟨u, e, hcopied, hu⟩ := backCopy_copied (cur := .block) ho hle hroom hw
  refine ⟨u.setPair false, ?_, hcopied, by rw [hu]; rfl⟩
  rw [exec, execBlkReuse, operation_selected _ hc hs, State.setLastOffset_self, e]
  rfl

/-- Settles O29: `backCopy_copied` from the state with `last_offset` written, at the offset and the length of R51. -/
theorem blkCopiesAtItsOffset : Obligations.BlkCopiesAtItsOffset := by
  intro g1 lo g2 offset length s hc hw hfsm hform h1 hf1 h2 hf2 hoff hlen ho hle hroom
  have hs : selects (.blk g1 lo g2) s = true := selects_running hfsm
    (by simp [Instr.wf, (gammaOk_iff ..).2 ⟨h1, hf1⟩, (gammaOk_iff ..).2 ⟨h2, hf2⟩])
    (by simpa [Instr.selected, imp_iff_not_or] using hform)
  have hoff' : blockOffset g1 s.pair lo = offset := by
    simp [hoff, blockOffset, blockHigh, Bool.toNat, Bool.cond_eq_ite]
  have hlen' : blockLength offset g2 = length := by rw [hlen, blockLength, lengthCorrection_eq]
  obtain ⟨u, e, hcopied, hu⟩ := backCopy_copied (s := s.setLastOffset offset) (cur := .block) ho hle hroom hw
  refine ⟨u.setPair false, ?_, hcopied, by rw [hu]; rfl⟩
  rw [exec, execBlk, operation_selected _ hc hs]
  simp only [hoff', hlen', e]
  rfl

/-- Settles O30: `backCopy_copied` at `S / 2`, with `last_offset` written after it. -/
theorem shbCopiesAtItsOffset : Obligations.ShbCopiesAtItsOffset := by
  intro sv s hc hw hfsm h2 hle hroom
  have hs : selects (.shb sv) s = true := selects_running hfsm (decide_eq_true h2) rfl
  obtain ⟨u, e, hcopied, hu⟩ := backCopy_copied (cur := .short) (by omega) hle hroom hw
  refine ⟨(u.setLastOffset (sv.toNat / 2)).setPair false, ?_, hcopied, by rw [hu]; rfl⟩
  rw [exec, execShb, operation_selected _ hc hs, shortOffset_eq_div, shortLength_eq_mod, e]
  rfl

/-- Settles O31: both checks pass, and the loop of one byte finds it written. -/
theorem sbCopyCopiesOneByte : Obligations.SbCopyCopiesOneByte := by
  intro d s hc hw hfsm hd hle hroom
  have hs : selects (.sbCopy d) s = true := selects_running hfsm (decide_eq_true hd) rfl
  have ho : d.toNat ≠ 0 := fun h0 => hd (BitVec.eq_of_toNat_eq h0)
  obtain ⟨v, hv⟩ := Option.isSome_iff_exists.1 (hw (s.outLen - d.toNat) (by omega))
  refine ⟨v, hv, ?_⟩
  rw [exec, execSbCopy, operation_selected _ hc hs, singleOffset,
    backCopy_eq_copyLoop (by omega) hle hroom, copyLoop, hv]
  rfl

/-- Settles O35: LO is below 256, so it is the offset's remainder and `b` its quotient; the bands and the two parts of
`S` are read off the definitions. -/
theorem copyOperandsAreAssembledByTheTables : Obligations.CopyOperandsAreAssembledByTheTables := by
  refine ⟨fun g1 pair lo hg1 => ?_, fun offset g2 => ?_, fun sv hsv => ?_⟩
  · have hlo := lo.isLt
    unfold blockOffset blockHigh
    omega
  · simp only [blockLength, lengthCorrection]
    split_ifs <;> omega
  · have hlt := sv.isLt
    rw [shortOffset_eq_div, shortLength_eq_mod, BitVec.extractLsb'_toNat, BitVec.extractLsb'_toNat,
      Nat.shiftRight_zero, Nat.shiftRight_eq_div_pow]
    omega

end Sys2Proof.Machine

/-! # Proofs of the bit reader family (40_bit_reader.md)

One bit, one raw byte and a fixed field against the bits ahead of the cursor, and the bit at which the gamma number
overflows. -/

namespace Sys2Proof

open Machine (upcomingBits)

/-! ## One bit and one raw byte -/

/-- Settles O7: the three clauses are the three cases of `readBit_cases`, which exclude each other. -/
theorem bitReadReloadsOnlyOnDemand : Obligations.BitReadReloadsOnlyOnDemand := by
  intro input c
  obtain ⟨hb, hle, e⟩ | ⟨v, hb, hv, hlt, e⟩ | ⟨hb, e⟩ := readBit_cases input c
  · exact ⟨fun _ _ => e, fun w _ hw => by simp [List.getElem?_eq_none hle] at hw, (absurd hb ·)⟩
  · refine ⟨fun _ hle => absurd hlt hle.not_gt, fun w _ hw => ?_, (absurd hb ·)⟩
    cases hv.symm.trans hw
    exact e
  · exact ⟨fun h => absurd h hb, fun _ h => absurd h hb, fun _ => e⟩

/-- Settles O8: a raw byte read is `InByte`, whose cases are `inByte_cases`. -/
theorem rawByteReadLeavesTagAlone : Obligations.RawByteReadLeavesTagAlone := by
  intro input c
  obtain ⟨hle, e⟩ | ⟨v, hv, hlt, e⟩ := inByte_cases input c
  · exact ⟨fun _ => e, fun w hw => by simp [List.getElem?_eq_none hle] at hw⟩
  · refine ⟨fun hle => absurd hlt hle.not_gt, fun w hw => ?_⟩
    cases hv.symm.trans hw
    exact e

/-! ## The fixed field -/

section Fixed

variable {input : List Byte} {n acc v : Nat} {c c' : Cursor}

/-- Reads that begin within the input end within it (R27). -/
theorem Reads.inPos_le {bits raws : Nat} (h : Reads input bits raws c c') (hc : c.inPos ≤ input.length) :
    c'.inPos ≤ input.length := by
  induction h with
  | refl c => exact hc
  | @bit b bits raws c c1 c2 read _ ih =>
    apply ih
    obtain ⟨-, -, e⟩ | ⟨v, -, -, hlt, e⟩ | ⟨-, e⟩ := readBit_cases input c
    · cases e.symm.trans read
    · cases e.symm.trans read
      exact hlt
    · cases e.symm.trans read
      exact hc
  | raw read _ ih =>
    obtain ⟨rfl, hlt⟩ := readByte_done read
    exact ih hlt

/-- A field whose bits are ahead is read as their number above the accumulator, and they are gone (R58). -/
theorem readFixed_of_upcomingBits (h : n ≤ (upcomingBits input c).length) :
    ∃ c', readFixed input n acc c = .done (acc * 2 ^ n + bitsVal n (upcomingBits input c)) c' ∧
      upcomingBits input c' = (upcomingBits input c).drop n := by
  induction n generalizing acc c with
  | zero => exact ⟨c, by simp [readFixed, bitsVal], rfl⟩
  | succ n ih =>
    cases hbits : upcomingBits input c with
    | nil => simp [hbits] at h
    | cons b bs =>
      obtain ⟨c1, hr, rfl⟩ := readBit_of_upcomingBits hbits
      obtain ⟨c2, e, h2⟩ := ih (acc := acc * 2 + b.toNat) (c := c1) (by simpa [hbits] using h)
      refine ⟨c2, ?_, h2⟩
      rw [readFixed, hr, Read.bind_done, e, bitsVal]
      congr 1
      ring

/-- A field that was read had its bits ahead. -/
theorem length_upcomingBits_of_readFixed (h : readFixed input n acc c = .done v c') :
    n ≤ (upcomingBits input c).length := by
  induction n generalizing acc c with
  | zero => exact Nat.zero_le _
  | succ n ih =>
    obtain ⟨b, c1, hr, h⟩ := Read.bind_eq_done h
    rw [upcomingBits_of_readBit hr]
    exact Nat.succ_le_succ (ih h)

end Fixed

/-- Settles O9: with its bits ahead the field is read (`readFixed_of_upcomingBits`) with the reloads of
`Reads.cursor`; without them it raises, where no byte is left (`readFixed_raised`). -/
theorem fixedFieldTakesTheUpcomingBits : Obligations.FixedFieldTakesTheUpcomingBits := by
  intro input n acc c hc
  refine ⟨fun hn => ?_, fun hn => ?_⟩
  · obtain ⟨c', e, hbits⟩ := readFixed_of_upcomingBits hn
    obtain ⟨hpos, hcount⟩ := (readFixed_done e).cursor
    exact ⟨c', e, hbits, hpos, hcount⟩
  · cases hr : readFixed input n acc c with
    | done v c' => exact absurd (length_upcomingBits_of_readFixed hr) hn.not_ge
    | raised f c' =>
      obtain ⟨rfl, ⟨bits, raws, hreads⟩, hend⟩ := readFixed_raised hr
      exact ⟨c', rfl, (hreads.inPos_le hc).antisymm (hend rfl)⟩

/-! ## Overflow of the gamma number -/

/-- The leading `j + 2` bits of a value of `2^(j + 2)` or more leave bits of it below them. -/
theorem exists_leading_bits {v k j : Nat} {d : Bool} (htop : v / 2 ^ k = 1 * 2 + d.toNat) (hv : 2 ^ (j + 2) ≤ v) :
    ∃ m, m ≠ 0 ∧ k = m + j ∧ 2 ^ (j + 1) ≤ v / 2 ^ m ∧ v / 2 ^ m < 2 ^ (j + 2) := by
  have hd := Bool.toNat_le d
  have hlt : v < 2 ^ (k + 2) := by
    have : v < 4 * 2 ^ k := (Nat.div_lt_iff_lt_mul (Nat.two_pow_pos k)).1 (by omega)
    rwa [Nat.pow_add, Nat.mul_comm]
  have hjk : j + 2 < k + 2 := (Nat.pow_lt_pow_iff_right (by decide)).1 (hv.trans_lt hlt)
  obtain ⟨m, rfl⟩ : ∃ m, k = m + j := ⟨k - j, by omega⟩
  have hdiv : v / 2 ^ m / 2 ^ j = 1 * 2 + d.toNat := by rw [Nat.div_div_eq_div_mul, ← Nat.pow_add, htop]
  refine ⟨m, by omega, rfl, ?_, ?_⟩
  · rw [Nat.pow_add, Nat.mul_comm]
    exact (Nat.le_div_iff_mul_le (Nat.two_pow_pos j)).1 (by omega)
  · rw [Nat.pow_add, Nat.mul_comm]
    exact (Nat.div_lt_iff_lt_mul (Nat.two_pow_pos j)).1 (by omega)

/-- Let the bits of `v` from `m` up fill NUM_BITS, with bits of `v` left below them. The gamma loop that stands `j` folds
before them raises `NumberOverflow` at the continuation bit after the last of these folds (R57). -/
theorem gammaLoop_overflows {cfg : Config} {n v m : Nat} {input : List Byte} {c : Cursor} {rest : List Bool}
    (hnum : cfg.numBits = some n) (hm : m ≠ 0) (hlo : 2 ^ (n - 1) ≤ v / 2 ^ m) (hhi : v / 2 ^ m < 2 ^ n) (j : Nat)
    (h : upcomingBits input c = true :: gammaPairs v (m + j) ++ rest) :
    ∃ c', gammaLoop cfg input (bitsLeft input c) (v / 2 ^ (m + j)) c = .raised .numberOverflow c' ∧
      upcomingBits input c' = (upcomingBits input c).drop (2 * j + 1) := by
  induction j generalizing c with
  | zero =>
    have hfull : gammaFull cfg (v / 2 ^ m) = true := by simpa [gammaFull, hnum] using hlo
    obtain ⟨c1, hr, h1⟩ := readBit_of_upcomingBits h
    refine ⟨c1, ?_, by rw [h1, h]; rfl⟩
    rw [gammaLoop_unfold, hr]
    simp [hfull]
  | succ j ih =>
    have hroom : gammaFull cfg (v / 2 ^ (m + j + 1)) = false := by
      have hpos := Nat.two_pow_pos (n - 1)
      have := gammaFull_shift (cfg := cfg) (v := v / 2 ^ m) j (by simpa [Config.fitsNum, hnum] using hhi) (by omega)
      rwa [Nat.div_div_eq_div_mul, ← Nat.pow_add] at this
    rw [← Nat.add_assoc, gammaPairs_succ, (by simp [hm] : (m + j != 0) = true)] at h
    obtain ⟨c1, hr, h1⟩ := readBit_of_upcomingBits h
    obtain ⟨c2, hd, h2⟩ := readBit_of_upcomingBits h1
    obtain ⟨c3, e, h3⟩ := ih h2
    refine ⟨c3, ?_, by rw [h3, h2, h]; rfl⟩
    rw [gammaLoop_unfold, hr]
    simp [← Nat.add_assoc, hroom, hd, shift_fold_testBit, e]

/-- Settles O12: the value's leading NUM_BITS bits leave bits below them (`exists_leading_bits`), and the loop raises at
the continuation bit that says so (`gammaLoop_overflows`). -/
theorem gammaOverflowRaisesAtItsBit : Obligations.GammaOverflowRaisesAtItsBit := by
  intro cfg n input c v rest hnum hn hv hbits
  obtain ⟨j, rfl⟩ : ∃ j, n = j + 2 := ⟨n - 2, by omega⟩
  obtain ⟨k, d, htop⟩ := exists_top ((Nat.le_self_pow (by omega) 2).trans hv)
  obtain ⟨m, hm, rfl, hlo, hhi⟩ := exists_leading_bits htop hv
  rw [gammaCode_of_top htop, (by simp [hm] : (m + j != 0) = true)] at hbits
  obtain ⟨c1, hr, h1⟩ := readBit_of_upcomingBits hbits
  obtain ⟨c2, e, h2⟩ := gammaLoop_overflows hnum hm hlo hhi j h1
  refine ⟨c2, ?_, by rw [h2, h1, hbits]; rfl⟩
  rw [readGamma, hr, Read.bind_done, ← htop, e]

end Sys2Proof

/-! # Proofs of the dispatch and copy family (41_dispatch_and_copy.md)

The unary prefix against the bits ahead, the two checks of a copy and its closed form, the moves between the session
states, the bits a step consumes and the bound they put on a session, and the meanings that append. -/

namespace Sys2Proof

open Machine (upcomingBits)

/-! ## The unary prefix -/

section Prefix

variable {input : List Byte} {c c' : Cursor} {left count n : Nat}

/-- A unary count read set bits, one for each it counted, and the clear bit that ended it unless its range did (R59). -/
theorem upcomingBits_of_unaryLoop (h : unaryLoop input true left count c = .done n c') :
    ∃ k, n = count + k ∧
      ((k < left ∧ upcomingBits input c = List.replicate k true ++ false :: upcomingBits input c') ∨
        (k = left ∧ upcomingBits input c = List.replicate k true ++ upcomingBits input c')) := by
  induction left generalizing count c with
  | zero =>
    cases h
    exact ⟨0, rfl, .inr ⟨rfl, rfl⟩⟩
  | succ left ih =>
    obtain ⟨b, c1, hr, h⟩ := Read.bind_eq_done h
    rw [upcomingBits_of_readBit hr]
    cases b with
    | false =>
      cases h
      exact ⟨0, rfl, .inl ⟨Nat.succ_pos left, rfl⟩⟩
    | true =>
      obtain ⟨k, rfl, hbits⟩ := ih h
      refine ⟨k + 1, by omega, hbits.imp ?_ ?_⟩
      · exact fun ⟨hk, e⟩ => ⟨Nat.succ_lt_succ hk, congrArg (true :: ·) e⟩
      · exact fun ⟨hk, e⟩ => ⟨congrArg (· + 1) hk, congrArg (true :: ·) e⟩

/-- A prefix that was read is the code of the opcode it selects (R48, R63). -/
theorem upcomingBits_of_readUnary (h : readUnary input 3 true c = .done n c') :
    n ≤ 3 ∧ upcomingBits input c = (Opcode.ofCount n).code ++ upcomingBits input c' := by
  obtain ⟨k, hn, ⟨hk, hbits⟩ | ⟨rfl, hbits⟩⟩ := upcomingBits_of_unaryLoop h
  · obtain rfl : n = k := hn.trans (Nat.zero_add k)
    refine ⟨hk.le, hbits.trans ?_⟩
    obtain rfl | rfl | rfl : n = 0 ∨ n = 1 ∨ n = 2 := by omega
    all_goals rfl
  · subst hn
    exact ⟨le_rfl, hbits⟩

/-- A unary read raises only what its bit reads raise (R55, R59). -/
theorem unaryLoop_raised_code {set : Bool} {f : FaultCode} (h : unaryLoop input set left count c = .raised f c') :
    f = .unexpectedEndOfInput := by
  induction left generalizing count c with
  | zero => cases h
  | succ left ih =>
    obtain hr | ⟨b, c1, -, h⟩ := Read.bind_eq_raised h
    · exact (readBit_raised hr).1
    · split at h
      · exact ih h
      · cases h

end Prefix

/-- Settles O5: a prefix read raises end of data (`unaryLoop_raised_code`) or has read the code of the opcode its count
selects (`upcomingBits_of_readUnary`), whose operand reads follow (`decodeOpcode_eq`). -/
theorem prefixCountSelectsOpcode : Obligations.PrefixCountSelectsOpcode := by
  intro input c
  cases hr : readUnary input 3 true c with
  | raised f c' =>
    obtain rfl := unaryLoop_raised_code hr
    exact .inl ⟨c', rfl, fun cfg pair => by rw [decodeOpcode_eq, hr, Read.under_raised]⟩
  | done n c' =>
    obtain ⟨hn, hbits⟩ := upcomingBits_of_readUnary hr
    have hdec : ∀ cfg pair, decodeOpcode cfg pair input c = decodeOperands cfg pair input (Opcode.ofCount n) c' :=
      fun cfg pair => by rw [decodeOpcode_eq, hr, Read.under_done]
    right
    obtain rfl | rfl | rfl | rfl : n = 0 ∨ n = 1 ∨ n = 2 ∨ n = 3 := by omega
    · exact .inl ⟨c', rfl, hbits, hdec⟩
    · exact .inr (.inl ⟨c', rfl, hbits, hdec⟩)
    · exact .inr (.inr (.inl ⟨c', rfl, hbits, hdec⟩))
    · exact .inr (.inr (.inr ⟨c', rfl, hbits, hdec⟩))

/-! ## The bits a read consumes -/

/-- Reads consume the bits they take of those the cursor can still reach, and eight for a raw byte. -/
theorem Reads.bitsLeft_eq {input : List Byte} {bits raws : Nat} {c c' : Cursor} (h : Reads input bits raws c c') :
    bitsLeft input c = bitsLeft input c' + bits + 8 * raws := by
  induction h with
  | refl c => rfl
  | bit read _ ih =>
    rw [readBit_bitsLeft read, ih]
    omega
  | raw read _ ih =>
    obtain ⟨rfl, hlt⟩ := readByte_done read
    simp only [bitsLeft] at ih ⊢
    omega

/-- Every opcode reads at least the first bit of its prefix (R49). -/
theorem bitsRead_pos {i : Instr} {pair : Bool} (h : i.selected false pair = true) : 1 ≤ Machine.bitsRead i := by
  cases i with
  | first l => cases h
  | lit l | blkReuse g2 | blk g1 lo g2 | shb sv | endStream sv | sbZero | sbCopy d =>
    simp only [Machine.bitsRead]
    omega

end Sys2Proof

namespace Sys2Proof.Machine

/-! ## The checks of a copy, and its closed form -/

theorem hasRoom_eq_false {cfg : Config} {cap outLen n : Nat} (hcap : cfg.outCap = some cap) (h : cap < outLen + n) :
    cfg.hasRoom outLen n = false := by
  simp [Config.hasRoom, hcap, h]

/-- An offset out of bounds raises whatever the length (R72). -/
theorem backCopy_invalid {cur : OpLabel} {offset : Nat} (length : Nat) {s : State}
    (h : offset = 0 ∨ s.outLen < offset) :
    backCopy cur offset length s = .ended (s.raise .invalidBackReference cur offset) := if_pos h

/-- With the offset in bounds, a length that does not fit raises (R69, R72). -/
theorem backCopy_full {cur : OpLabel} {offset length cap : Nat} {s : State} (ho : 1 ≤ offset) (hle : offset ≤ s.outLen)
    (hcap : s.cfg.outCap = some cap) (hfull : cap < s.outLen + length) :
    backCopy cur offset length s = .ended (s.raise .outputCapacityExceeded cur length) := by
  rw [backCopy, if_neg (by omega), hasRoom_eq_false hcap hfull]
  rfl

/-- Settles O26: the copy makes the OUT of `backCopy_copied`, whose sources lie below `out_len`, where no byte
changed. -/
theorem backCopyMeetsItsClosedForm : Obligations.BackCopyMeetsItsClosedForm := by
  intro cur offset length s hw ho hle hroom
  obtain ⟨t, e, ⟨hlen, hcopied, hstays⟩, hframe⟩ := backCopy_copied (cur := cur) ho hle hroom hw
  refine ⟨t, e, hlen, fun i hi => ?_, hstays, hframe⟩
  have hmod := Nat.mod_lt i ho
  rw [hcopied i hi, hstays _ (.inl (by omega))]

/-- Settles O27: `backCopy_invalid`, and `backCopy_full` where the offset is in bounds. -/
theorem backCopyChecksOffsetThenCapacity : Obligations.BackCopyChecksOffsetThenCapacity :=
  fun _ _ length _ => ⟨backCopy_invalid length, fun _ => backCopy_full⟩

/-! ## What a step leaves -/

/-- Settles O41: a step that fails did so by a failed operation, which has the frame of `Failed.frame`, or by a raise of
its reads. -/
theorem failedStepLeavesTheOutputAlone : Obligations.FailedStepLeavesTheOutputAlone := by
  intro s t h hfsm
  obtain ⟨i, c, -, -, hs, hcomp | hfail⟩ | ⟨f, cur, c, -, rfl⟩ := step_outcome h
  · exact absurd hfsm (hcomp.not_failed hs)
  · obtain ⟨-, hout, hlen, hpair, -⟩ := hfail.frame
    exact ⟨hout, hlen, hpair⟩
  · exact ⟨rfl, rfl, rfl⟩

theorem Failed.errCode {i : Instr} {s t : State} (h : Failed i s t) : ∃ f, t.errCode = some f := by
  cases h with
  | invalid o _ eq => exact ⟨_, congrArg State.errCode eq⟩
  | full eq => exact ⟨_, congrArg State.errCode eq⟩

/-- END has one outcome (R70). -/
theorem exec_endStream_next {sv : Byte} {s t : State} (h : exec (.endStream sv) s = .next t) :
    t = s.setFsm .terminated := (exec_effect h).2.2

section Step

variable {s t : State} (h : step s = .next t)
include h

/-- A step ends in TERMINATED exactly when it ran END (R67, R70). -/
theorem step_terminated_iff : t.fsm = .terminated ↔ ∃ sv c, fetch s = .instr (.endStream sv) c := by
  obtain ⟨i, c, hf, hexec, hs, hdone⟩ | ⟨f, cur, c, hf, rfl⟩ := step_outcome h
  · refine ⟨fun hfsm => ?_, fun ⟨sv, c', hf'⟩ => ?_⟩
    · obtain hcomp | hfail := hdone
      · obtain ⟨-, e⟩ | ⟨⟨sv, rfl⟩, -⟩ := hcomp.fsm_cases hs
        · cases e.symm.trans hfsm
        · exact ⟨sv, c, hf⟩
      · cases hfail.frame.fsm.symm.trans hfsm
    · cases hf.symm.trans hf'
      rw [exec_endStream_next hexec]
      rfl
  · exact ⟨nofun, fun ⟨sv, c', hf'⟩ => absurd (hf.symm.trans hf') nofun⟩

/-- A step ends in RUNNING, in TERMINATED or in FAILED (R67). -/
theorem step_fsm : t.fsm = .running ∨ t.fsm = .terminated ∨ t.fsm = .failed := by
  obtain ⟨i, c, -, -, hs, hcomp | hfail⟩ | ⟨f, cur, c, -, rfl⟩ := step_outcome h
  · exact (hcomp.fsm_cases hs).imp And.right fun ⟨_, e⟩ => .inl e
  · exact .inr (.inr hfail.frame.fsm)
  · exact .inr (.inr rfl)

/-- The first step of a session runs FIRST, so it does not terminate (R62, R67). -/
theorem step_start_not_terminated (hstart : s.fsm = .start) : t.fsm ≠ .terminated := by
  intro hterm
  obtain ⟨sv, c, hf⟩ := (step_terminated_iff h).1 hterm
  rw [fetch, hstart] at hf
  obtain ⟨l, hi, -⟩ := decodeFirst_instr hf
  cases hi

/-- A step records a fault exactly where it ends in FAILED (R67, R92). -/
theorem step_errCode :
    (t.fsm = .failed → ∃ f, t.errCode = some f) ∧ (t.fsm ≠ .failed → t.errCode = s.errCode) := by
  obtain ⟨i, c, -, -, hs, hcomp | hfail⟩ | ⟨f, cur, c, -, rfl⟩ := step_outcome h
  · exact ⟨fun hfsm => absurd hfsm (hcomp.not_failed hs), fun _ => hcomp.extended.errCode⟩
  · exact ⟨fun _ => hfail.errCode, fun hne => absurd hfail.frame.fsm hne⟩
  · exact ⟨fun _ => ⟨f, rfl⟩, fun hne => absurd rfl hne⟩

end Step

/-! ## The session states -/

/-- Parameters that break R5 admit no move (D25). -/
theorem move_next_valid {m : Move} {s t : State} (h : move m s = .next t) : s.cfg.valid = true := by
  unfold move at h
  split at h
  next hv => exact hv
  next => cases h

/-- A start command is accepted outside a session only (R102, R103). -/
theorem startMove_next_fsm {input : List Byte} {s t : State} (h : startMove input s = .next t) :
    s.fsm = .idle ∨ s.fsm = .terminated ∨ s.fsm = .failed := by
  unfold startMove at h
  split at h
  · split at h
    · cases h
    next hout =>
      rw [inSession_iff] at hout
      cases hfsm : s.fsm <;> simp [hfsm] at hout ⊢
  · cases h

/-- Settles O44: the step's moves are `step_fsm`, `step_terminated_iff` and `step_errCode`, the start command's are
`startMove_next_fsm`, and a host read changes at most the draws. -/
theorem sessionStatesMoveByTheTable : Obligations.SessionStatesMoveByTheTable := by
  intro m s t hmove
  have hv := move_next_valid hmove
  cases m with
  | step =>
    have h := move_step_next hmove
    obtain ⟨-, hin, -⟩ := step_next h
    refine ⟨?_, step_terminated_iff h, step_errCode h⟩
    obtain hstart | hrun := (inSession_iff s).1 hin
    · exact .inl ⟨hstart, (step_fsm h).imp_right (·.resolve_left (step_start_not_terminated h hstart))⟩
    · exact .inr ⟨hrun, step_fsm h⟩
  | reset =>
    simp only [move, hv, if_true] at hmove
    cases hmove
    rfl
  | write index value input =>
    simp only [move, hv, if_true, writeRegister] at hmove
    show if index = 0 ∧ value % 2 = 1 then _ else _
    split at hmove
    next hctrl =>
      obtain ⟨rfl, -⟩ := startMove_next hmove
      rw [if_pos hctrl]
      exact ⟨startMove_next_fsm hmove, rfl⟩
    next hctrl =>
      cases hmove
      rw [if_neg hctrl]
  | readRegister index =>
    simp only [move, hv, if_true] at hmove
    cases hmove
    obtain e | e := readRegister_state index s <;> simp [e]
  | readOut a =>
    simp only [move, hv, if_true] at hmove
    cases hmove
    obtain e | e := readOut_state a s <;> simp [e]

/-- Settles O18: the three states of `sessionStep` that do not fire. -/
theorem noStepOutsideASession : Obligations.NoStepOutsideASession := by
  intro s hc
  refine ⟨fun hfsm => ?_, fun hfsm => ?_, fun hfsm => ?_⟩ <;> rw [step, sessionStep, if_pos hc, hfsm]

/-! ## The bound on a session -/

/-- Every operation but END appends at least one byte (R50, R52, R65). -/
theorem appendedBytes_pos {i : Instr} {s : State} (hw : i.wf s.cfg = true) (hend : ∀ x, i ≠ .endStream x) :
    1 ≤ appendedBytes s i := by
  cases i with
  | first l | lit l | sbZero | sbCopy d => exact le_rfl
  | endStream sv => exact absurd rfl (hend sv)
  | blkReuse g2 =>
    obtain ⟨h2, -⟩ := (gammaOk_iff s.cfg g2).1 hw
    exact Nat.le_of_succ_le h2
  | blk g1 lo g2 =>
    obtain ⟨-, hok⟩ : gammaOk s.cfg g1 = true ∧ gammaOk s.cfg g2 = true := by simpa [Instr.wf] using hw
    obtain ⟨h2, -⟩ := (gammaOk_iff s.cfg g2).1 hok
    exact (Nat.le_of_succ_le h2).trans (Nat.le_add_right _ _)
  | shb sv => exact (by decide : 1 ≤ 2).trans (Nat.le_add_right _ _)

/-- A step that decodes an operation consumes what the operation reads. -/
theorem step_bitsLeft {s t : State} {i : Instr} {c : Cursor} (hf : fetch s = .instr i c)
    (hexec : exec i (s.withCursor c) = .next t) :
    bitsLeft s.input s.cursor = bitsLeft t.input t.cursor + bitsRead i + 8 * rawRead i := by
  have hsame := exec_sameStream hexec
  rw [hsame.input, hsame.cursor]
  exact (decode_reads hf).bitsLeft_eq

/-- Settles O45: an opcode reads a bit (`bitsRead_pos`), and one that completes without ending the session appends a
byte (`appendedBytes_pos`). -/
theorem runningStepConsumesInputOrEnds : Obligations.RunningStepConsumesInputOrEnds := by
  intro s t h hrun
  obtain ⟨i, c, hf, hexec, hs, hdone⟩ | ⟨f, cur, c, -, rfl⟩ := step_outcome h
  · obtain ⟨hw, -, hsel⟩ := (selects_iff i s).1 hs
    rw [hrun] at hsel
    have hbits := step_bitsLeft hf hexec
    have hpos := bitsRead_pos hsel
    refine ⟨.inr (.inr ?_), fun hgoes => ?_⟩
    · show bitsLeft t.input t.cursor < bitsLeft s.input s.cursor
      omega
    · obtain hcomp | hfail := hdone
      · obtain ⟨hend, -⟩ | ⟨-, e⟩ := hcomp.fsm_cases hs
        · have hlen : t.outLen = s.outLen + appendedBytes (s.withCursor c) i := hcomp.extended.outLen
          have hbytes := appendedBytes_pos (s := s.withCursor c) hw hend
          omega
        · cases e.symm.trans hgoes
      · cases hfail.frame.fsm.symm.trans hgoes
  · exact ⟨.inl rfl, nofun⟩

/-- A session in RUNNING ends within one step more than the bits it has left (R65). -/
theorem run_running_ends (n : Nat) {s : State} (h : Inv s) (hrun : s.fsm = .running)
    (hn : bitsLeft s.input s.cursor < n) :
    ∃ k t, k ≤ n ∧ Host.Core.run Sys2Proof.core k s = .next t ∧ (t.fsm = .terminated ∨ t.fsm = .failed) := by
  induction n generalizing s with
  | zero => exact absurd hn (Nat.not_lt_zero _)
  | succ n ih =>
    obtain ⟨t, ht⟩ := everySessionStepCompletes s h (.inr hrun)
    obtain hgoes | hends := step_fsm ht
    · obtain ⟨hprogress, -⟩ := runningStepConsumesInputOrEnds s t ht hrun
      have hless : bitsLeft t.input t.cursor < bitsLeft s.input s.cursor := by
        simpa [hgoes, State.cursor] using hprogress
      obtain ⟨k, u, hk, hu, hdone⟩ :=
        ih (stepKeepsTheInvariant s t h ht) hgoes (hless.trans_le (Nat.le_of_lt_succ hn))
      exact ⟨k + 1, u, Nat.succ_le_succ hk, (run_next ht k).trans hu, hdone⟩
    · exact ⟨1, t, Nat.le_add_left 1 n, run_next ht 0, hends⟩

/-- Settles O46: the first step fails or leaves at most the `8N` bits of the input, which bound the steps in RUNNING
(`run_running_ends`). -/
theorem sessionEndsWithinItsBound : Obligations.SessionEndsWithinItsBound := by
  intro s h hstart
  obtain ⟨t, ht⟩ := everySessionStepCompletes s h (.inl hstart)
  obtain hgoes | hends := step_fsm ht
  · obtain ⟨hpos, hcount, -⟩ := h.startFresh (.inr hstart)
    have hall : bitsLeft s.input s.cursor = 8 * s.input.length := by
      simp [bitsLeft, hpos, hcount]
    obtain ⟨i, c, hf, hexec, -⟩ | ⟨f, cur, c, -, rfl⟩ := step_outcome ht
    · have hbits := step_bitsLeft hf hexec
      obtain ⟨k, u, hk, hu, hdone⟩ :=
        run_running_ends (8 * s.input.length + 1) (stepKeepsTheInvariant s t h ht) hgoes (by omega)
      exact ⟨k + 1, u, by omega, (run_next ht k).trans hu, hdone⟩
    · cases hgoes
  · exact ⟨1, t, Nat.le_add_right 1 _, run_next ht 0, hends⟩

/-! ## The meanings where they are selected -/

section Selected

variable {s : State} (hc : configured s = true)
include hc

theorem exec_first {l : Byte} (hs : selects (.first l) s = true) :
    exec (.first l) s =
      ((append .first l s).andThen fun u => (markSingleUnit u).andThen fun u => .go (u.setFsm .running)).outcome := by
  rw [exec, execFirst, operation_selected _ hc hs]

theorem exec_lit {l : Byte} (hs : selects (.lit l) s = true) :
    exec (.lit l) s = ((append .lit l s).andThen markSingleUnit).outcome := by
  rw [exec, execLit, operation_selected _ hc hs]

theorem exec_blkReuse {g2 : Nat} (hs : selects (.blkReuse g2) s = true) :
    exec (.blkReuse g2) s = ((backCopy .block s.lastOffset g2 s).andThen markBlock).outcome := by
  rw [exec, execBlkReuse, operation_selected _ hc hs, State.setLastOffset_self]

theorem exec_blk {g1 : Nat} {lo : Byte} {g2 : Nat} (hs : selects (.blk g1 lo g2) s = true) :
    exec (.blk g1 lo g2) s =
      ((backCopy .block (blockOffset g1 s.pair lo) (blockLength (blockOffset g1 s.pair lo) g2)
        (s.setLastOffset (blockOffset g1 s.pair lo))).andThen markBlock).outcome := by
  rw [exec, execBlk, operation_selected _ hc hs]

theorem exec_shb {sv : Byte} (hs : selects (.shb sv) s = true) :
    exec (.shb sv) s =
      ((backCopy .short (shortOffset sv) (shortLength sv) s).andThen fun u =>
        markBlock (u.setLastOffset (shortOffset sv))).outcome := by
  rw [exec, execShb, operation_selected _ hc hs]

theorem exec_endStream {sv : Byte} (hs : selects (.endStream sv) s = true) :
    exec (.endStream sv) s = .next (s.setFsm .terminated) := operation_selected _ hc hs

theorem exec_sbZero (hs : selects .sbZero s = true) :
    exec .sbZero s = ((append .single 0 s).andThen markSingleUnit).outcome := by
  rw [exec, execSbZero, operation_selected _ hc hs]

theorem exec_sbCopy {d : BitVec 4} (hs : selects (.sbCopy d) s = true) :
    exec (.sbCopy d) s = ((backCopy .single (singleOffset d) 1 s).andThen markSingleUnit).outcome := by
  rw [exec, execSbCopy, operation_selected _ hc hs]

end Selected

/-- In START FIRST is selected (R49). -/
theorem selects_first {s : State} (l : Byte) (hfsm : s.fsm = .start) : selects (.first l) s = true :=
  (selects_iff ..).2 ⟨rfl, (inSession_iff s).2 (.inl hfsm), decide_eq_true hfsm⟩

/-- Settles O23: `Append` has room (`append_room`), and the two updates after it are FIRST's. -/
theorem firstAppendsItsByte : Obligations.FirstAppendsItsByte := by
  intro l s hc hfsm hroom
  rw [exec_first hc (selects_first l hfsm), append_room ((hasRoom_iff ..).2 hroom)]
  rfl

/-- Settles O24: `Append` has room (`append_room`). -/
theorem litAppendsItsByte : Obligations.LitAppendsItsByte := by
  intro l s hc hfsm hroom
  rw [exec_lit hc (selects_running hfsm rfl rfl), append_room ((hasRoom_iff ..).2 hroom)]
  rfl

/-- Settles O25: `Append` has room (`append_room`). -/
theorem sbZeroAppendsZero : Obligations.SbZeroAppendsZero := by
  intro s hc hfsm hroom
  rw [exec_sbZero hc (selects_running hfsm rfl rfl), append_room ((hasRoom_iff ..).2 hroom)]
  rfl

/-- Settles O32: END is selected for either value of `S`, and its meaning is `halt`. -/
theorem endTerminatesTheSession : Obligations.EndTerminatesTheSession :=
  fun _ _ hc hfsm hsv => exec_endStream hc (selects_running hfsm (decide_eq_true hsv) rfl)

/-! ## The meanings where their output does not fit -/

section Full

variable {cur : OpLabel} {s : State} {k : State → Flow} {cap : Nat} (hcap : s.cfg.outCap = some cap)
include hcap

/-- `Append` at a full OUT ends the operation with the record (3, label, 1) (R69). -/
theorem append_full_outcome {v : Byte} (hfull : cap ≤ s.outLen) :
    ((append cur v s).andThen k).outcome = .next (s.raise .outputCapacityExceeded cur 1) := by
  rw [append_full (hasRoom_eq_false hcap (Nat.lt_succ_of_le hfull))]
  rfl

/-- A copy that does not fit ends the operation with the record (3, label, length) (R69, R72). -/
theorem backCopy_full_outcome {offset length : Nat} (ho : 1 ≤ offset) (hle : offset ≤ s.outLen)
    (hfull : cap < s.outLen + length) :
    ((backCopy cur offset length s).andThen k).outcome = .next (s.raise .outputCapacityExceeded cur length) := by
  rw [backCopy_full ho hle hcap hfull]
  rfl

end Full

/-- SHB's offset is not 0 (R52). -/
theorem shortOffset_pos {sv : Byte} {s : State} (hs : selects (.shb sv) s = true) : 1 ≤ shortOffset sv := by
  obtain ⟨hw, -, -⟩ := (selects_iff _ s).1 hs
  have h2 : 2 ≤ sv.toNat := of_decide_eq_true hw
  rw [shortOffset_eq_div]
  omega

/-- SB_COPY's offset is not 0 (R52). -/
theorem singleOffset_pos {d : BitVec 4} {s : State} (hs : selects (.sbCopy d) s = true) : 1 ≤ singleOffset d := by
  obtain ⟨hw, -, -⟩ := (selects_iff _ s).1 hs
  have hd : d ≠ 0 := of_decide_eq_true hw
  exact Nat.one_le_iff_ne_zero.2 fun h0 => hd (BitVec.eq_of_toNat_eq h0)

/-- Settles O34: `append_full_outcome` for the three operations that append a byte, `backCopy_full_outcome` for the four
copies, that of BLK from the state with `last_offset` written. -/
theorem fullOutputEndsTheSessionInFailed : Obligations.FullOutputEndsTheSessionInFailed := by
  refine ⟨fun l s cap hc hcap hfull => ⟨fun hfsm => ?_, fun hfsm => ?_, fun hfsm => ?_⟩,
    fun g2 s cap hc hs ho hle hcap hfull => ?_, fun g1 lo g2 offset s cap hc hs hoff ho hle hcap hfull => ?_,
    fun sv s cap hc hs hle hcap hfull => ?_, fun d s cap hc hs hle hcap hfull => ?_⟩
  · exact (exec_first hc (selects_first l hfsm)).trans (append_full_outcome hcap hfull)
  · exact (exec_lit hc (selects_running hfsm rfl rfl)).trans (append_full_outcome hcap hfull)
  · exact (exec_sbZero hc (selects_running hfsm rfl rfl)).trans (append_full_outcome hcap hfull)
  · exact (exec_blkReuse hc hs).trans (backCopy_full_outcome hcap ho hle hfull)
  · subst hoff
    exact (exec_blk hc hs).trans
      (backCopy_full_outcome (s := s.setLastOffset (blockOffset g1 s.pair lo)) hcap ho hle hfull)
  · have ho := shortOffset_pos hs
    rw [← shortOffset_eq_div] at hle
    rw [← shortLength_eq_mod] at hfull ⊢
    exact (exec_shb hc hs).trans (backCopy_full_outcome hcap ho hle hfull)
  · exact (exec_sbCopy hc hs).trans
      (backCopy_full_outcome hcap (singleOffset_pos hs) hle (Nat.lt_succ_of_le hfull))

end Sys2Proof.Machine

/-! # Proofs of the opcode family (42_opcodes.md)

The first step of a session, and the copies whose offset is out of bounds. -/

namespace Sys2Proof.Machine

/-! ## The first step of a session -/

/-- In START the step reads FIRST at the cursor, whatever the parameters (R49, R62). -/
theorem fetch_start {s : State} (hfsm : s.fsm = .start) : fetch s = decodeFirst s.input s.cursor := by
  rw [fetch, hfsm]
  rfl

/-- At the front of a non-empty input FIRST takes one raw byte and no bit (R76). -/
theorem decodeFirst_cons {c : Cursor} (l : Byte) (rest : List Byte) (hpos : c.inPos = 0) :
    decodeFirst (l :: rest) c = .instr (.first l) { c with inPos := 1 } := by
  simp [decodeFirst, readByte, inByte, hpos]

/-- An empty input has no byte for FIRST, whose read raises where it stands (R76, R87). -/
theorem decodeFirst_nil (c : Cursor) : decodeFirst [] c = .raised .unexpectedEndOfInput .first c := rfl

/-- Legal parameters leave room for the first byte: OUT_CAP is at least 1 (R5). -/
theorem outLen_lt_outCap {s : State} (hc : configured s = true) (hlen : s.outLen = 0) :
    ∀ cap, s.cfg.outCap = some cap → s.outLen < cap := by
  obtain ⟨hv, -⟩ := (configured_iff s).1 hc
  obtain ⟨-, hcap, -⟩ := (Config.valid_iff s.cfg).1 hv
  intro cap h
  exact hlen.trans_lt (hcap cap h)

/-- FIRST has no opcode (R48, R76). -/
theorem label_ne_first (o : Opcode) : o.label ≠ .first := by
  cases o <;> nofun

/-- The reads of an opcode yield an operation under the opcode's label, so no FIRST (R63, R76). -/
theorem decodeOpcode_ne_first {cfg : Config} {pair : Bool} {input : List Byte} {c c' : Cursor} {l : Byte} :
    decodeOpcode cfg pair input c ≠ .instr (.first l) c' := by
  intro h
  rw [decodeOpcode_eq] at h
  obtain ⟨n, c1, -, h⟩ := Read.under_eq_instr h
  obtain ⟨hlabel, -⟩ := decodeOperands_instr h
  exact label_ne_first _ hlabel.symm

/-- Settles O22: in START the reads are `decodeFirst`'s, and the byte read is appended as O23 says, at index 0; outside
START the reads are an opcode's (`decodeOpcode_ne_first`). -/
theorem firstStepEmitsTheInitialLiteral : Obligations.FirstStepEmitsTheInitialLiteral := by
  refine ⟨fun s hc hfsm ⟨hpos, _, _, _, _, hlen⟩ => ?_, fun s hfsm l c h => ?_⟩
  · have hin := (inSession_iff s).2 (.inl hfsm)
    refine ⟨fun l rest hinput => ?_, fun hinput => ?_⟩
    · have hfetch : fetch s = .instr (.first l) { s.cursor with inPos := 1 } := by
        rw [fetch_start hfsm, hinput, decodeFirst_cons l rest hpos]
      have hexec := firstAppendsItsByte l (s.withCursor { s.cursor with inPos := 1 }) hc hfsm (outLen_lt_outCap hc hlen)
      rw [step_instr hc hin hfetch, hexec, State.withCursor_outLen, hlen]
      rfl
    · have hfetch : fetch s = .raised .unexpectedEndOfInput .first s.cursor := by
        rw [fetch_start hfsm, hinput, decodeFirst_nil]
      exact step_raised hc hin hfetch
  · rw [fetch, decide_eq_false hfsm] at h
    exact decodeOpcode_ne_first h

/-! ## The copies whose offset is out of bounds -/

/-- A copy whose offset is out of bounds ends the operation with the record (2, label, offset), and what follows the
copy does not run (R72, R88). -/
theorem backCopy_invalid_outcome {cur : OpLabel} {offset : Nat} (length : Nat) {s : State} {k : State → Flow}
    (h : offset = 0 ∨ s.outLen < offset) :
    ((backCopy cur offset length s).andThen k).outcome = .next (s.raise .invalidBackReference cur offset) := by
  rw [backCopy_invalid length h]
  rfl

/-- Settles O33: `backCopy_invalid_outcome` for the four copies, that of BLK from the state with `last_offset`
written. -/
theorem badOffsetEndsTheSessionInFailed : Obligations.BadOffsetEndsTheSessionInFailed := by
  refine ⟨fun g2 s hc hs hbad => ?_, fun g1 lo g2 s hc hs hbad => ?_, fun sv s hc hs hbad => ?_,
    fun d s hc hs hbad => ?_⟩
  · exact (exec_blkReuse hc hs).trans (backCopy_invalid_outcome g2 hbad)
  · exact (exec_blk hc hs).trans
      (backCopy_invalid_outcome (s := s.setLastOffset (blockOffset g1 s.pair lo)) _ hbad)
  · rw [← shortOffset_eq_div] at hbad ⊢
    exact (exec_shb hc hs).trans (backCopy_invalid_outcome (shortLength sv) (.inr hbad))
  · exact (exec_sbCopy hc hs).trans (backCopy_invalid_outcome 1 (.inr hbad))

end Sys2Proof.Machine

namespace Sys2Proof.Machine

/-! ## The trace port -/

theorem emitted_without_port {s : State} (hen : s.cfg.traceEn = false) : emitted s = none := by
  simp [emitted, hen]

section Emitted

variable {s t : State} (hen : s.cfg.traceEn = true) (h : step s = .next t)
include hen h

/-- A step that ran an operation emits that operation's record. -/
theorem emitted_instr {i : Instr} {c : Cursor} (hf : fetch s = .instr i c) :
    emitted s = some (recordOf i (s.withCursor c) t) := by
  simp [emitted, hen, h, hf]

/-- A step whose reads raised emits the fault, with `err_info` 0 (R91). -/
theorem emitted_raised {f : FaultCode} {cur : OpLabel} {c : Cursor} (hf : fetch s = .raised f cur c) :
    emitted s = some (.fault (some f) cur 0) := by
  simp [emitted, hen, h, hf]

end Emitted

theorem recordOf_failed (i : Instr) (s : State) {t : State} (hfsm : t.fsm = .failed) :
    recordOf i s t = .fault t.errCode t.errOp t.errInfo := if_pos hfsm

theorem recordOf_completed (i : Instr) (s : State) {t : State} (hfsm : t.fsm ≠ .failed) :
    recordOf i s t = .operation (mnemonic i) (traceOperands i s) t.outLen t.inPos := if_neg hfsm

theorem Completed.appended {i : Instr} {s t : State} (h : Completed i s t) :
    t.outLen - s.outLen = appendedBytes s i := by
  rw [h.extended.outLen, Nat.add_sub_cancel_left]

/-- Settles O60: the record is `recordOf`'s; the offset and length that BLK and SHB show are the `last_offset` and the
growth of `out_len` of the completed operation (`Completed`), and the other forms show operands of their own encoding or
the `last_offset` they copied at. -/
theorem traceRecordsEachStep : Obligations.TraceRecordsEachStep := by
  refine fun s => ⟨emitted_without_port, fun t i c hen h hf hfsm => ?_, fun t hen h hfsm => ?_⟩
  · have hcomp : Completed i (s.withCursor c) t := by
      obtain ⟨hc, hs, -⟩ := step_next h
      exact exec_completed ((step_instr hc hs hf).symm.trans h) hfsm
    have hoff := hcomp.lastOffset
    have hlen : t.outLen - s.outLen = _ := hcomp.appended
    rw [emitted_instr hen h hf, recordOf_completed i _ hfsm]
    cases i with
    | first l | lit l | blkReuse g2 | endStream sv | sbZero | sbCopy d => rfl
    | blk g1 lo g2 | shb sv =>
      rw [hoff, hlen]
      rfl
  · obtain ⟨-, -, ⟨i, c, hf, -⟩ | ⟨f, cur, c, hf, rfl⟩⟩ := step_next h
    · rw [emitted_instr hen h hf, recordOf_failed i _ hfsm]
    · exact emitted_raised hen h hf

end Sys2Proof.Machine

namespace Sys2Proof.Machine

/-! ## Two sessions on one input -/

/-- Outcomes that agree are of one kind. -/
theorem OutcomesAgree.cases {rel : State → State → Prop} {x y : Host.Outcome State Fault Refusal}
    (h : OutcomesAgree rel x y) :
    (∃ s t, x = .next s ∧ y = .next t ∧ rel s t) ∨ (∃ f, x = .fault f ∧ y = .fault f) ∨
      ∃ r, x = .refused r ∧ y = .refused r := by
  cases x <;> cases y
  case next.next s t => exact .inl ⟨s, t, rfl, rfl, h⟩
  case fault.fault f g =>
    obtain rfl : f = g := h
    exact .inr (.inl ⟨f, rfl, rfl⟩)
  case refused.refused f g =>
    obtain rfl : f = g := h
    exact .inr (.inr ⟨f, rfl, rfl⟩)
  all_goals exact False.elim h

/-- A run stops at a step that faults. -/
theorem run_fault {s : State} {f : Fault} (h : step s = .fault f) (k : Nat) :
    Host.Core.run Sys2Proof.core (k + 1) s = .fault f := by
  have h' : Sys2Proof.core.step s = .fault f := h
  simp only [Host.Core.run, h']

/-- A run stops at a step that is refused. -/
theorem run_refused {s : State} {r : Refusal} (h : step s = .refused r) (k : Nat) :
    Host.Core.run Sys2Proof.core (k + 1) s = .refused r := by
  have h' : Sys2Proof.core.step s = .refused r := h
  simp only [Host.Core.run, h']

/-- A step changes neither the parameters nor the input, so its state is as legal as the one before (R5). -/
theorem step_configured {s t : State} (h : step s = .next t) : configured t = true := by
  obtain ⟨hc, -, ⟨i, c, -, hexec⟩ | ⟨f, cur, c, -, rfl⟩⟩ := step_next h
  · exact (exec_sameStream hexec).configured.trans hc
  · exact hc

/-- States of one session stay so over a run: O47 at each step. -/
theorem SameSession.run_agree (k : Nat) {s t : State} (h : SameSession s t) (hs : configured s = true)
    (ht : configured t = true) :
    OutcomesAgree SameSession (Host.Core.run Sys2Proof.core k s) (Host.Core.run Sys2Proof.core k t) := by
  induction k generalizing s t with
  | zero => exact h
  | succ k ih =>
    obtain ⟨s', t', es, et, hnext⟩ | ⟨f, es, et⟩ | ⟨r, es, et⟩ := (stepReadsOnlyTheSession s t h hs ht).cases
    · rw [run_next es, run_next et]
      exact ih hnext (step_configured es) (step_configured et)
    · rw [run_fault es, run_fault et]
      rfl
    · rw [run_refused es, run_refused et]
      rfl

/-- The start command sets every register and leaves no byte of OUT below `out_len`, so the session sees nothing of what
went before (R29, R102). -/
theorem sameSession_sessionStart {s s' : State} (input : List Byte) (hcap : s.cfg.outCap = s'.cfg.outCap)
    (hbits : s.cfg.numBits = s'.cfg.numBits) : SameSession (s.sessionStart input) (s'.sessionStart input) where
  input := rfl
  outCap := hcap
  numBits := hbits
  inPos := rfl
  bitCount := rfl
  tag := rfl
  pair := rfl
  lastOffset := rfl
  outLen := rfl
  out := fun a ha => absurd ha (Nat.not_lt_zero a)
  fsm := rfl
  errCode := rfl
  errOp := rfl
  errInfo := rfl

/-- Settles O48: the two starts give states of one session (`sameSession_sessionStart`), and a run keeps that
(`SameSession.run_agree`). -/
theorem sessionsOnOneInputAgree : Obligations.SessionsOnOneInputAgree := by
  intro s s' t t' input hcap hbits ht ht' k
  obtain ⟨rfl, hc⟩ := startMove_next ht
  obtain ⟨rfl, hc'⟩ := startMove_next ht'
  exact (sameSession_sessionStart input hcap hbits).run_agree k hc hc'

end Sys2Proof.Machine
